-- ==== Sys2Proof/Word.lean ====
section
/-! DEFINITION. The two bit-vector widths of an operation request (30_encoding.md R62). Bit 0 is the least
significant bit and bit i has weight 2^i (00_scope.md R12), which is BitVec's own numbering. -/

namespace Sys2Proof

/-- The operand and result buses of a request: `operand[63:0]`, `result[63:0]` (R62). -/
abbrev Word := BitVec 64

/-- The operation identifier of a request: `opsel[4:0]` (R62). -/
abbrev Opsel := BitVec 5

end Sys2Proof
end

