-- ==== Sys2Proof/Machine/Matrix.lean ====
section
/-! DEFINITION. Parity-check matrices, the two that the spec gives in full, and the checks a matrix parameter must
pass (40_parity_encoders.md R100, R108, R110, R115, R120, R125). A matrix is a list of rows; row i lists the data bits
that parity bit k + i XORs. -/

namespace Sys2Proof

/-- A list of rows, each a list of data-bit indices (R100). -/
abbrev ParityMatrix := List (List Nat)

/-- H4: the rows of output bits 4 to 7 (40_parity_encoders.md R110). -/
def Config.h4 : ParityMatrix := [[0, 2, 3], [0, 1, 3], [0, 1, 2], [1, 2, 3]]

/-- H11: the rows of output bits 11 to 15 (R115). -/
def Config.h11 : ParityMatrix :=
  [[0, 1, 3, 4, 5, 7, 9], [0, 1, 3, 6, 7, 8, 10], [0, 2, 4, 5, 6, 7, 8], [0, 1, 2, 4, 8, 9, 10],
   [0, 2, 3, 5, 6, 9, 10]]

/-- Column `j` of a matrix as a number: its bit `i` is 1 exactly when `j` lies in row `i` (R106). -/
def column : ParityMatrix → Nat → Nat
  | [], _ => 0
  | row :: rows, j => (row.contains j).toNat + 2 * column rows j

/-- The columns of data bits 0 to k − 1, in order. -/
def columns (k : Nat) (H : ParityMatrix) : List Nat :=
  (List.range k).map (column H)

/-- How many of the low `m` bits of `x` are 1 (popcount of R13, for a column of `m` rows). -/
def columnWeight : Nat → Nat → Nat
  | 0, _ => 0
  | m + 1, x => x % 2 + columnWeight m (x / 2)

/-- Condition (i) of R108: every column has weight at least 3. -/
def columnsHeavy (m : Nat) (cs : List Nat) : Bool :=
  cs.all (fun c => Nat.ble 3 (columnWeight m c))

/-- Condition (ii) of R108: every two distinct columns differ in at least 2 positions. -/
def columnsApart (m : Nat) : List Nat → Bool
  | [] => true
  | c :: cs => cs.all (fun d => Nat.ble 2 (columnWeight m (Nat.xor c d))) && columnsApart m cs

/-- No column of the list is `x`. -/
def noColumnIs (x : Nat) : List Nat → Bool
  | [] => true
  | e :: es => bif Nat.beq x e then false else noColumnIs x es

/-- `c` and two later columns, one after the other, never XOR to 0. -/
def noTripleWith (c : Nat) : List Nat → Bool
  | [] => true
  | d :: ds => noColumnIs (Nat.xor c d) ds && noTripleWith c ds

/-- Condition (iii) of R108: no three distinct columns XOR to 0. -/
def noColumnTriple : List Nat → Bool
  | [] => true
  | c :: cs => noTripleWith c cs && noColumnTriple cs

/-- A row is a set: no index is listed twice. -/
def rowDistinct : List Nat → Bool
  | [] => true
  | j :: js => noColumnIs j js && rowDistinct js

/-- P2 and Q2: every row is a set of distinct indices in 0..k − 1. -/
def rowsInRange (k : Nat) (H : ParityMatrix) : Bool :=
  H.all (fun row => row.all (fun j => Nat.blt j k) && rowDistinct row)

/-- The checks of R120 and R125 by name, so that a refusal can say which failed. -/
inductive MatrixCheck where
  | p1 | p2 | p3 | p4 | p5
  | q1 | q2 | q3 | q4
deriving DecidableEq, Repr

/-- What each check of R120 (k = 26) and R125 (k = 57) asks of a matrix. P4 and Q3 are condition (i) of R108,
P5 and Q4 conditions (ii) and (iii). -/
def MatrixCheck.passes (H : ParityMatrix) : MatrixCheck → Bool
  | .p1 => Nat.beq H.length 6
  | .p2 => rowsInRange 26 H
  | .p3 => H.all (fun row => Nat.beq row.length 15)
  | .p4 => columnsHeavy H.length (columns 26 H)
  | .p5 => columnsApart H.length (columns 26 H) && noColumnTriple (columns 26 H)
  | .q1 => Nat.beq H.length 7
  | .q2 => rowsInRange 57 H
  | .q3 => columnsHeavy H.length (columns 57 H)
  | .q4 => columnsApart H.length (columns 57 H) && noColumnTriple (columns 57 H)

/-- The checks of H26 (R120). -/
def checks26 : List MatrixCheck := [.p1, .p2, .p3, .p4, .p5]

/-- The checks of H57 (R125). -/
def checks57 : List MatrixCheck := [.q1, .q2, .q3, .q4]

/-- H26 is accepted only if every check of R120 passes. -/
def check26 (H : ParityMatrix) : Bool := checks26.all (MatrixCheck.passes H)

/-- H57 is accepted only if every check of R125 passes. -/
def check57 (H : ParityMatrix) : Bool := checks57.all (MatrixCheck.passes H)

/-- The checks of a list that a matrix fails, for the refusal of R177. -/
def failedChecks (checks : List MatrixCheck) (H : ParityMatrix) : List MatrixCheck :=
  checks.filter (fun c => !MatrixCheck.passes H c)

end Sys2Proof
end

