-- ==== Sys2Proof/Config.lean ====
section
/-! DEFINITION. What the build fixes (00_scope.md R8 to R11; 10_state.md R25) and the values the spec leaves open. -/

namespace Sys2Proof

namespace Config

/-- REPL_MAX_WIDTH: no combiner's output is wider (R11, R141). -/
def replMaxWidth : Nat := 64

/-- H26_SYNTH of 95_test_vectors.md V6: NOT the device's matrix. It is here only because Lean asks that a type of
accepted matrices has a member; no definition of the machine computes with it. -/
def synthetic26 : ParityMatrix :=
  [[0, 1, 2, 4, 5, 7, 10, 11, 13, 16, 20, 21, 22, 23, 24],
   [0, 1, 3, 4, 6, 8, 10, 12, 14, 17, 20, 21, 22, 23, 25],
   [0, 2, 3, 5, 6, 9, 11, 12, 15, 18, 20, 21, 22, 24, 25],
   [1, 2, 3, 7, 8, 9, 13, 14, 15, 19, 20, 21, 23, 24, 25],
   [4, 5, 6, 7, 8, 9, 16, 17, 18, 19, 20, 22, 23, 24, 25],
   [10, 11, 12, 13, 14, 15, 16, 17, 18, 19, 21, 22, 23, 24, 25]]

/-- H57_SYNTH of V6: NOT the device's matrix, and here for the same reason. -/
def synthetic57 : ParityMatrix :=
  [[0, 1, 2, 4, 5, 7, 10, 11, 13, 16, 20, 21, 23, 26, 30, 35, 36, 37, 38, 39, 41, 42, 43, 44, 46, 47, 48, 50, 51,
    53, 56],
   [0, 1, 3, 4, 6, 8, 10, 12, 14, 17, 20, 22, 24, 27, 31, 35, 36, 37, 38, 40, 41, 42, 43, 45, 46, 47, 49, 50, 52,
    54, 56],
   [0, 2, 3, 5, 6, 9, 11, 12, 15, 18, 21, 22, 25, 28, 32, 35, 36, 37, 39, 40, 41, 42, 44, 45, 46, 48, 49, 51, 52,
    55, 56],
   [1, 2, 3, 7, 8, 9, 13, 14, 15, 19, 23, 24, 25, 29, 33, 35, 36, 38, 39, 40, 41, 43, 44, 45, 47, 48, 49, 53, 54,
    55, 56],
   [4, 5, 6, 7, 8, 9, 16, 17, 18, 19, 26, 27, 28, 29, 34, 35, 37, 38, 39, 40, 42, 43, 44, 45, 50, 51, 52, 53, 54,
    55, 56],
   [10, 11, 12, 13, 14, 15, 16, 17, 18, 19, 30, 31, 32, 33, 34, 36, 37, 38, 39, 40, 46, 47, 48, 49, 50, 51, 52, 53,
    54, 55, 56],
   [20, 21, 22, 23, 24, 25, 26, 27, 28, 29, 30, 31, 32, 33, 34, 41, 42, 43, 44, 45, 46, 47, 48, 49, 50, 51, 52, 53,
    54, 55, 56]]

theorem synthetic26_accepted : check26 synthetic26 = true := by decide +kernel

theorem synthetic57_accepted : check57 synthetic57 = true := by decide +kernel

end Config

/-- A 26→32 matrix that passes P1 to P5 (R120). A matrix that fails a check is refused at configuration, so the
machine holds only accepted ones (R10, R177). -/
structure H26 where
  rows : ParityMatrix := Config.synthetic26
  accepted : check26 rows = true := by first | exact Config.synthetic26_accepted | assumption
deriving DecidableEq, Repr, Inhabited

/-- A 57→64 matrix that passes Q1 to Q4 (R125). -/
structure H57 where
  rows : ParityMatrix := Config.synthetic57
  accepted : check57 rows = true := by first | exact Config.synthetic57_accepted | assumption
deriving DecidableEq, Repr, Inhabited

/-- DIRTY_HIGH_BITS (R103): what an encoder does with input bits k..n − 1. -/
inductive DirtyHighBits where
  /-- the output depends on the low k bits only: the default and the normative reading -/
  | ignore
  /-- any n-bit output is admitted when a high input bit is 1 -/
  | any
deriving DecidableEq, Repr

/-- The configuration of one block, fixed by the build for the whole run (R25). -/
structure Config where
  h26 : H26
  h57 : H57
  dirtyHighBits : DirtyHighBits
deriving DecidableEq, Repr

/-- The device's own 26→32 matrix: an accepted matrix of which nothing else is known (R10; 91_not_in_source.md
N2). A free value: assumption log 2. -/
opaque Config.deviceH26 : H26

/-- The device's own 57→64 matrix (R10; N3). A free value: assumption log 2. -/
opaque Config.deviceH57 : H57

/-- The n-bit output of the encoder with codeword width n for an input with dirty high bits, under
DIRTY_HIGH_BITS = `any` (R103). A free value, one for each width and input: assumption log 3. -/
opaque Config.dirtyOutput : (n : Nat) → BitVec n → BitVec n

/-- The configuration the model runs with from power-up: the device's matrices, and DIRTY_HIGH_BITS at its
default (R11, R29). -/
def Config.device : Config :=
  { h26 := Config.deviceH26, h57 := Config.deviceH57, dirtyHighBits := .ignore }

end Sys2Proof
end

