-- ==== Sys2Proof/Syntax.lean ====
section
/-! DEFINITION. The nine operations (opcode_table.json), the operation request (30_encoding.md R62), the host's
notation for sequences of operations (R75) and the host's actions (R71). -/

namespace Sys2Proof

/-- One operation: the view bit `s` (R66) and the value on the operand bus (R62). A constructor per row of
opcode_table.json. -/
inductive Instr where
  | enc_4_8 (s : Bool) (operand : Word)
  | enc_11_16 (s : Bool) (operand : Word)
  | enc_26_32 (s : Bool) (operand : Word)
  | enc_57_64 (s : Bool) (operand : Word)
  | rep_8x2 (s : Bool) (operand : Word)
  | rep_16x2 (s : Bool) (operand : Word)
  | rep_32x2 (s : Bool) (operand : Word)
  | rep_8x4 (s : Bool) (operand : Word)
  | rep_16x4 (s : Bool) (operand : Word)
deriving DecidableEq, Repr

/-- The nine independent units of the block, each with one input port and one output port (R60). -/
inductive Component where
  | enc_4_8 | enc_11_16 | enc_26_32 | enc_57_64
  | rep_8x2 | rep_16x2 | rep_32x2 | rep_8x4 | rep_16x4
deriving DecidableEq, Repr

/-- The operation request: the one format of R62 and R69. -/
structure Request where
  opsel : Opsel
  operand : Word
deriving DecidableEq, Repr

/-- The operand of a line of the notation: a literal, here with its sign so that R76 can refuse a negative one,
or a name (R75). -/
inductive SrcOperand where
  | literal (v : Int)
  | name (n : String)
deriving DecidableEq, Repr

/-- A line of the notation (R75): an operation whose result is bound to a name, or a name the host supplies. -/
inductive SrcLine where
  | op (dest : String) (mnemonic : String) (s : Bool) (operand : SrcOperand)
  | input (name : String)
deriving DecidableEq, Repr

/-- A name of the host. A name written in a line is `user`; the inner results of a pseudo-operation (R80) get
names of their own, which no line can write: assumption log 11. -/
inductive Name where
  | user (text : String)
  | inner (dest : String) (k : Nat)
deriving DecidableEq, Repr

/-- Where an assembled operation takes its operand from. -/
inductive AsmOperand where
  | const (v : Word)
  | name (n : Name)
deriving DecidableEq, Repr

/-- An assembled operation: the identifier its mnemonic and suffix select (R75), its operand, and the name its
result is bound to. -/
structure AsmOp where
  dest : Name
  opsel : Opsel
  operand : AsmOperand
deriving DecidableEq, Repr

/-- One thing the host does. -/
inductive HostAction where
  /-- asks for one operation (R62) -/
  | request (r : Request)
  /-- asks for one assembled operation of the given source line and binds its result (R75) -/
  | op (line : Nat) (o : AsmOp)
  /-- gives a program's lines, with the start values of its input names, to the assembler (R75, R76) -/
  | load (inputs : List (String × Word)) (lines : List String)
  /-- drives a value on an input port and holds it (R71); the port takes the value's low bits (R63) -/
  | drive (c : Component) (v : Word)
  /-- lets go of the value on an input port that it has driven, which is then changing until it is driven again
  (R206) -/
  | change (c : Component)
  /-- reads an output port, with the view bit that says how the host reads the bits (R71, R66) -/
  | read (c : Component) (s : Bool)
deriving DecidableEq, Repr

/-- The unit an operation is evaluated on. -/
def Instr.component : Instr → Component
  | .enc_4_8 _ _ => .enc_4_8
  | .enc_11_16 _ _ => .enc_11_16
  | .enc_26_32 _ _ => .enc_26_32
  | .enc_57_64 _ _ => .enc_57_64
  | .rep_8x2 _ _ => .rep_8x2
  | .rep_16x2 _ _ => .rep_16x2
  | .rep_32x2 _ _ => .rep_32x2
  | .rep_8x4 _ _ => .rep_8x4
  | .rep_16x4 _ _ => .rep_16x4

/-- The view bit `s` of an operation (R66). -/
def Instr.view : Instr → Bool
  | .enc_4_8 s _ | .enc_11_16 s _ | .enc_26_32 s _ | .enc_57_64 s _ => s
  | .rep_8x2 s _ | .rep_16x2 s _ | .rep_32x2 s _ | .rep_8x4 s _ | .rep_16x4 s _ => s

/-- The operand bus of an operation (R62). -/
def Instr.operand : Instr → Word
  | .enc_4_8 _ v | .enc_11_16 _ v | .enc_26_32 _ v | .enc_57_64 _ v => v
  | .rep_8x2 _ v | .rep_16x2 _ v | .rep_32x2 _ v | .rep_8x4 _ v | .rep_16x4 _ v => v

/-- The operation of a unit, view bit and operand. -/
def Component.instr : Component → Bool → Word → Instr
  | .enc_4_8 => .enc_4_8
  | .enc_11_16 => .enc_11_16
  | .enc_26_32 => .enc_26_32
  | .enc_57_64 => .enc_57_64
  | .rep_8x2 => .rep_8x2
  | .rep_16x2 => .rep_16x2
  | .rep_32x2 => .rep_32x2
  | .rep_8x4 => .rep_8x4
  | .rep_16x4 => .rep_16x4

end Sys2Proof
end

