-- ==== Sys2Proof/WellFormed.lean ====
section
/-! DEFINITION. Which requests and which lines of the notation are well-formed. An `Instr` has no check: every view
bit and every operand makes an operation (40_parity_encoders.md R105; 41_replication.md R142), so no `Instr` is
ill-formed. The checks of the matrix parameters stand in Machine/Matrix.lean, and the assembler's refusals that
need the names bound so far (R76) in Machine/Asm.lean. -/

namespace Sys2Proof

/-- The values of `opsel[3:0]` that name no operation (30_encoding.md R67). -/
def reservedCodes : List (BitVec 4) := [0x4#4, 0x5#4, 0x6#4, 0x7#4, 0xB#4, 0xE#4, 0xF#4]

/-- A request is well-formed when its identifier is not one of the 14 reserved values (R67). -/
def Request.wellFormed (r : Request) : Bool := !reservedCodes.contains (r.opsel.setWidth 4)

/-- A literal fits an input port of width `w` when it is not negative and less than 2^w (R76). -/
def literalFits (w : Nat) (v : Int) : Bool := decide (0 ≤ v) && decide (v < (2 ^ w : Nat))

end Sys2Proof
end

