-- ==== Sys2Proof/Decode.lean ====
section
/-! DEFINITION. From a request to an operation and back (30_encoding.md R64 to R69), and the port widths of each
unit (R60, R65). The decoder reads the fields of R64; the encoder writes the identifiers of R65's table. -/

namespace Sys2Proof

/-- W_in: the width of a unit's input port (R60, R65). -/
@[reducible] def Component.inWidth : Component → Nat
  | .enc_4_8 => 8
  | .enc_11_16 => 16
  | .enc_26_32 => 32
  | .enc_57_64 => 64
  | .rep_8x2 => 8
  | .rep_16x2 => 16
  | .rep_32x2 => 32
  | .rep_8x4 => 8
  | .rep_16x4 => 16

/-- W_out: the width of a unit's output port (R60, R65). -/
@[reducible] def Component.outWidth : Component → Nat
  | .enc_4_8 => 8
  | .enc_11_16 => 16
  | .enc_26_32 => 32
  | .enc_57_64 => 64
  | .rep_8x2 => 16
  | .rep_16x2 => 32
  | .rep_32x2 => 64
  | .rep_8x4 => 32
  | .rep_16x4 => 64

/-- Why a request is refused: its identifier names no operation (R67). -/
inductive Reject where
  | reservedOpsel (opsel : Opsel)
deriving DecidableEq, Repr

/-- The field `s` = opsel[4] (R64). -/
def opselS (o : Opsel) : Bool := o.getLsbD 4

/-- The field `cls` = opsel[3] (R64). -/
def opselCls (o : Opsel) : Bool := o.getLsbD 3

/-- The field `x` = opsel[2] (R64). -/
def opselX (o : Opsel) : Bool := o.getLsbD 2

/-- The field `sel` = opsel[1:0] (R64). -/
def opselSel (o : Opsel) : Nat := (o.extractLsb' 0 2).toNat

/-- The encoder family that `sel` selects when `cls` = 0 and `x` = 0 (R64). -/
def encoderOf : Nat → Option Component
  | 0 => some .enc_4_8
  | 1 => some .enc_11_16
  | 2 => some .enc_26_32
  | 3 => some .enc_57_64
  | _ => none

/-- The combiner that makes `r` copies of an n-bit value, where the output fits REPL_MAX_WIDTH (R141). -/
def combinerOf (n r : Nat) : Option Component :=
  if r * n ≤ Config.replMaxWidth then
    match n, r with
    | 8, 2 => some .rep_8x2
    | 16, 2 => some .rep_16x2
    | 32, 2 => some .rep_32x2
    | 8, 4 => some .rep_8x4
    | 16, 4 => some .rep_16x4
    | _, _ => none
  else none

/-- The input width that `sel` selects when `cls` = 1: 8, 16, 32 or 64 (R64). -/
def combinerWidth (sel : Nat) : Nat := 8 * 2 ^ sel

/-- The replication factor that `x` selects when `cls` = 1 (R64). -/
def replicationFactor (x : Bool) : Nat := if x then 4 else 2

/-- The unit an identifier names, if any (R64, R67). -/
def componentOf (o : Opsel) : Option Component :=
  match opselCls o, opselX o with
  | false, false => encoderOf (opselSel o)
  | false, true => none
  | true, x => combinerOf (combinerWidth (opselSel o)) (replicationFactor x)

/-- The operation a request asks for; a reserved identifier is rejected by name (R67). -/
def decode (r : Request) : Except Reject Instr :=
  match componentOf r.opsel with
  | some c => .ok (c.instr (opselS r.opsel) r.operand)
  | none => .error (.reservedOpsel r.opsel)

/-- `opsel[3:0]` of each operation (R65's table). -/
def Component.code : Component → BitVec 4
  | .enc_4_8 => 0x0#4
  | .enc_11_16 => 0x1#4
  | .enc_26_32 => 0x2#4
  | .enc_57_64 => 0x3#4
  | .rep_8x2 => 0x8#4
  | .rep_16x2 => 0x9#4
  | .rep_32x2 => 0xA#4
  | .rep_8x4 => 0xC#4
  | .rep_16x4 => 0xD#4

/-- The identifier of an operation: `s` above its code (R64, R65). -/
def Component.opsel (c : Component) (s : Bool) : Opsel := BitVec.ofBool s ++ c.code

/-- The request that asks for an operation. -/
def encode (i : Instr) : Request :=
  { opsel := i.component.opsel i.view, operand := i.operand }

/-- A request numbered as one natural number: opsel at bits 4..0, three bits that are not part of it at 7..5, and
the operand at bits 71..8. R62 gives a request no such form; the packing is the model's: assumption log 8. -/
def Request.ofNumber (w : Nat) : Request :=
  { opsel := BitVec.ofNat 5 w, operand := BitVec.ofNat 64 (w / 256) }

/-- The same numbering, outwards. -/
def Request.toNumber (r : Request) : Nat := r.opsel.toNat + 256 * r.operand.toNat

/-- The request whose low `nbits` bits are those of `w`, all others 0. -/
def Request.ofTableWord (nbits w : Nat) : Request := Request.ofNumber (w % 2 ^ nbits)

/-- The operation the decoder reads from a table word. -/
def decodeTableWord (nbits w : Nat) : Option Instr :=
  match decode (Request.ofTableWord nbits w) with
  | .ok i => some i
  | .error _ => none

end Sys2Proof
end

