-- ==== Sys2Proof/Machine/State.lean ====
section
/-! DEFINITION. The state of the model (10_state.md R25, R26, R29), the ways a step can stop (60_exceptions.md
R177), and the state after power-up (70_reset_and_hazards.md R200, R201). The block has no registers, flags,
program counter or memory (R20 to R24; 20_memory.md R40): what the model keeps is the configuration, the input
ports, and what the host holds. -/

namespace Sys2Proof.Machine

/-- The status of an input port of width `w`. -/
inductive InPort (w : Nat) where
  /-- never driven: the output has no value (R27) -/
  | undriven
  /-- the host has let go of the value, or is changing it (R206) -/
  | changing
  /-- driven, held and settled (R205) -/
  | stable (v : BitVec w)
deriving DecidableEq, Repr

/-- The nine input ports, by the names and widths of R60. -/
structure Ports where
  enc8_in : InPort 8
  enc16_in : InPort 16
  enc32_in : InPort 32
  enc64_in : InPort 64
  rep8x2_in : InPort 8
  rep8x4_in : InPort 8
  rep16x2_in : InPort 16
  rep16x4_in : InPort 16
  rep32x2_in : InPort 32
deriving DecidableEq, Repr

/-- A value the host has: the 64-bit result bus (R70), how many of its bits are the value's, and whether the host
reads them as two's complement (R66). -/
structure Reading where
  width : Nat
  view : Bool
  bits : Word
deriving DecidableEq, Repr

/-- The machine. `cfg` and `ports` are the block's (R25); `results`, `names` and `script` are the host's (R26). -/
structure State where
  /-- the configuration, fixed for the whole run (R8, R25) -/
  cfg : Config
  /-- the input ports; each output port is a function of its input port (R25) -/
  ports : Ports
  /-- every result the host has read, newest first (R62, R211) -/
  results : List Reading
  /-- the host's named values, newest first (R75, R211) -/
  names : List (Name × Reading)
  /-- what the host does next, in order (R62, R71, R75) -/
  script : List HostAction
deriving DecidableEq, Repr

/-- Why a read stops the machine. Neither is a hardware event (R177). -/
inductive Fault where
  /-- FAULT_UNDRIVEN_READ: raised by a read of an output whose input was never driven (R27). Safe. -/
  | undrivenRead (c : Component)
  /-- FAULT_UNSTABLE_READ: raised by a read of an output whose input is changing (R206). Safe. -/
  | unstableRead (c : Component)
deriving DecidableEq, Repr

/-- Why the assembler refuses a line (R76). -/
inductive AsmError where
  /-- a literal that is negative -/
  | negativeLiteral
  /-- a literal that does not fit in W_in -/
  | literalTooWide
  /-- a name that is not yet bound -/
  | nameNotBound
  /-- a name bound a second time -/
  | nameBoundTwice
  /-- a name whose value is wider than W_in -/
  | nameTooWide
  /-- a mnemonic not in R75 -/
  | unknownMnemonic
  /-- a line that is no line of R75's grammar: assumption log 13 -/
  | notALine
deriving DecidableEq, Repr

/-- The two matrix parameters (R10). -/
inductive MatrixParameter where
  | h26 | h57
deriving DecidableEq, Repr

/-- Why the model refuses. None is a hardware event (R177). -/
inductive Refusal where
  /-- the interface's own: an operation without a meaning; no arm of this model answers with it. Safe. -/
  | notModelled (mnemonic : String)
  /-- REFUSED_RESERVED_OPSEL: raised by a request with a reserved identifier (R67). Safe. -/
  | reservedOpsel (opsel : Opsel)
  /-- REFUSED_BAD_MATRIX: raised at configuration, with the checks that fail (R120, R125). Safe. -/
  | badMatrix (which : MatrixParameter) (failed : List MatrixCheck)
  /-- REFUSED_ASM: raised by the assembler, with the line's number (R76). Safe. -/
  | asm (line : Nat) (why : AsmError)
deriving DecidableEq, Repr

/-- No input port is driven at power-up (R29). -/
def Ports.undriven : Ports :=
  { enc8_in := .undriven, enc16_in := .undriven, enc32_in := .undriven, enc64_in := .undriven,
    rep8x2_in := .undriven, rep8x4_in := .undriven, rep16x2_in := .undriven, rep16x4_in := .undriven,
    rep32x2_in := .undriven }

/-- The state right after power-up with a given configuration: no port is driven (R29, R201) and the host has read
nothing, bound nothing and asked for nothing. -/
def State.powerUp (cfg : Config) : State :=
  { cfg := cfg, ports := Ports.undriven, results := [], names := [], script := [] }

/-- The state right after power-up of the device. There is no reset input (R200). -/
def State.reset : State := State.powerUp Config.device

end Sys2Proof.Machine
end

