-- ==== Sys2Proof/Machine/Asm.lean ====
section
/-! DEFINITION. The host's notation and its assembler (30_encoding.md R75, R76), and the pseudo-operations (R80,
R81). Nothing here is hardware: the assembler stands at the boundary (60_exceptions.md R177). The notation's words
are `name = mnemonic operand`, `name = mnemonic.s operand` and `input name`. -/

namespace Sys2Proof.Machine

/-- The mnemonics of R75: an operation stands for one unit, a pseudo-operation for the chain of units its value
goes through (R80). -/
def mnemonics : List (String × List Component) :=
  [("enc_4_8", [.enc_4_8]), ("enc_11_16", [.enc_11_16]), ("enc_26_32", [.enc_26_32]), ("enc_57_64", [.enc_57_64]),
   ("rep_8x2", [.rep_8x2]), ("rep_8x4", [.rep_8x4]), ("rep_16x2", [.rep_16x2]), ("rep_16x4", [.rep_16x4]),
   ("rep_32x2", [.rep_32x2]),
   ("enc_4_16", [.enc_4_8, .rep_8x2]), ("enc_4_32", [.enc_4_8, .rep_8x4]),
   ("enc_4_64", [.enc_4_8, .rep_8x4, .rep_32x2]), ("enc_11_32", [.enc_11_16, .rep_16x2]),
   ("enc_11_64", [.enc_11_16, .rep_16x4]), ("enc_26_64", [.enc_26_32, .rep_32x2])]

/-- The chain of units a mnemonic stands for. -/
def chainOf (mnemonic : String) : Option (List Component) := mnemonics.lookup mnemonic

/-- The operations of a chain, the first one's operand given (R80): every inner result is bound to a name of its
own and fed forward, so the encoder runs once (R81), and `.s` goes on the last operation only. `k` numbers the
inner results: assumption log 11. -/
def expandFrom (dest : String) (s : Bool) (k : Nat) (operand : AsmOperand) : List Component → List AsmOp
  | [] => []
  | [c] => [{ dest := .user dest, opsel := c.opsel s, operand := operand }]
  | c :: c' :: rest =>
    { dest := .inner dest k, opsel := c.opsel false, operand := operand } ::
      expandFrom dest s (k + 1) (.name (.inner dest k)) (c' :: rest)

/-- The operations a line stands for. -/
def expand (dest : String) (s : Bool) (operand : AsmOperand) (chain : List Component) : List AsmOp :=
  expandFrom dest s 0 operand chain

/-- The width of the name a line binds: W_out of its last operation. -/
def chainOutWidth : List Component → Nat
  | [] => 0
  | [c] => c.outWidth
  | _ :: c' :: rest => chainOutWidth (c' :: rest)

/-- The width a line's operand must fit: W_in of its first operation. -/
def chainInWidth : List Component → Nat
  | [] => 0
  | c :: _ => c.inWidth

/-- The names bound so far, each with the width of its value (R76). -/
abbrev Bound := List (String × Nat)

/-- The least number of bits a value needs: the width of an input name's value. Assumption log 10. -/
def bitLength (v : Word) : Nat := if v = 0#64 then 0 else Nat.log2 v.toNat + 1

/-- The assembler's check of a line's operand against the width it must fit (R76). A narrower value is
zero-extended to the operand bus, and a literal's dirty high bits are accepted. -/
def assembleSource (bound : Bound) (w : Nat) : SrcOperand → Except AsmError AsmOperand
  | .literal v =>
    if v < 0 then .error .negativeLiteral
    else if literalFits w v then .ok (.const (BitVec.ofInt 64 v))
    else .error .literalTooWide
  | .name n =>
    match bound.lookup n with
    | none => .error .nameNotBound
    | some width => if width ≤ w then .ok (.name (.user n)) else .error .nameTooWide

/-- What a line adds: its operations, the names it binds with their widths, and the input values it names. -/
structure Assembled where
  ops : List AsmOp
  bound : Bound
  inputs : List (String × Word)
deriving DecidableEq, Repr

/-- One line, given the names bound by earlier lines and the start values (R75, R76). -/
def assembleLine (start : List (String × Word)) (bound : Bound) : SrcLine → Except AsmError Assembled
  | .input n =>
    match bound.lookup n, start.lookup n with
    | some _, _ => .error .nameBoundTwice
    | none, none => .error .nameNotBound
    | none, some v => .ok { ops := [], bound := [(n, bitLength v)], inputs := [(n, v)] }
  | .op dest mnemonic s operand =>
    match chainOf mnemonic with
    | none => .error .unknownMnemonic
    | some chain =>
      match assembleSource bound (chainInWidth chain) operand with
      | .error e => .error e
      | .ok o =>
        match bound.lookup dest with
        | some _ => .error .nameBoundTwice
        | none => .ok { ops := expand dest s o chain, bound := [(dest, chainOutWidth chain)], inputs := [] }

/-! ### The text of a line -/

/-- The value of a digit in bases up to 16. -/
def digitValue (c : Char) : Option Nat :=
  let n := c.toNat
  if 48 ≤ n ∧ n ≤ 57 then some (n - 48)
  else if 97 ≤ n ∧ n ≤ 102 then some (n - 87)
  else if 65 ≤ n ∧ n ≤ 70 then some (n - 55)
  else none

/-- The value of digits in a base, most significant first, after `acc`. -/
def digitsValue (base : Nat) (acc : Nat) : List Char → Option Nat
  | [] => some acc
  | c :: cs =>
    match digitValue c with
    | some d => if d < base then digitsValue base (acc * base + d) cs else none
    | none => none

/-- One or more digits in a base. -/
def numeral (base : Nat) : List Char → Option Nat
  | [] => none
  | c :: cs => digitsValue base 0 (c :: cs)

/-- An unsigned literal of R75: `0x` and hexadecimal digits, `0b` and binary digits, or decimal digits. -/
def parseLiteral : List Char → Option Nat
  | '0' :: 'x' :: cs => numeral 16 cs
  | '0' :: 'b' :: cs => numeral 2 cs
  | cs => numeral 10 cs

/-- A letter or `_`. -/
def nameStart (c : Char) : Bool := c.isAlpha || c = '_'

/-- A name: a letter or `_`, then letters, digits and `_`. Assumption log 12. -/
def parseName : List Char → Option String
  | [] => none
  | c :: cs =>
    if nameStart c && cs.all (fun d => nameStart d || d.isDigit) then some (String.ofList (c :: cs)) else none

/-- An operand of R75. A numeral with a minus sign is no literal of R75's grammar; a negative one is read all the same,
so that R76 can refuse it by name, and `-0`, which is not negative, is no operand, so that its line is refused as no
line of the grammar. The choice of that reason is the model's: assumption log 13. -/
def parseOperand (w : List Char) : Option SrcOperand :=
  match parseLiteral w, w with
  | some v, _ => some (.literal v)
  | none, '-' :: cs =>
    match parseLiteral cs with
    | some (v + 1) => some (.literal (-((v + 1 : Nat) : Int)))
    | some 0 => none
    | none => none
  | none, cs => (parseName cs).map .name

/-- A mnemonic and whether the suffix `.s` follows it (R75). -/
def parseMnemonic (w : List Char) : String × Bool :=
  match w.reverse with
  | 's' :: '.' :: cs => (String.ofList cs.reverse, true)
  | _ => (String.ofList w, false)

/-- Puts the word being read, if any, before the words that follow it. -/
def endWord (word : List Char) (rest : List (List Char)) : List (List Char) :=
  match word with
  | [] => rest
  | c :: cs => (c :: cs) :: rest

/-- A line's words, `word` being read: blanks part them, `=` is a word of its own, and `;` begins a comment.
Assumption log 12. -/
def wordsFrom (word : List Char) : List Char → List (List Char)
  | [] => endWord word []
  | c :: cs =>
    if c = ';' then endWord word []
    else if c = ' ' || c = '\t' then endWord word (wordsFrom [] cs)
    else if c = '=' then endWord word (['='] :: wordsFrom [] cs)
    else wordsFrom (word ++ [c]) cs

/-- What a line's text holds. -/
inductive ParsedLine where
  | blank
  | line (l : SrcLine)
  | bad
deriving DecidableEq, Repr

/-- A line's text as a line of R75's grammar, or blank, or neither. -/
def parseLine (text : String) : ParsedLine :=
  match wordsFrom [] text.toList with
  | [] => .blank
  | [key, n] =>
    match parseName n with
    | some name => if key = ['i', 'n', 'p', 'u', 't'] then .line (.input name) else .bad
    | none => .bad
  | [n, eq, m, o] =>
    match parseName n, parseOperand o with
    | some dest, some operand =>
      if eq = ['='] then .line (.op dest (parseMnemonic m).1 (parseMnemonic m).2 operand) else .bad
    | _, _ => .bad
  | _ => .bad

/-- A refused line: its number, the first line being 1, and why (R76). -/
structure AsmRefusal where
  line : Nat
  why : AsmError
deriving DecidableEq, Repr

/-- A whole program: each operation with its line's number, and the input values (R75). -/
structure Program where
  ops : List (Nat × AsmOp)
  inputs : List (String × Word)
deriving DecidableEq, Repr

/-- The lines from number `n` on, given the names bound so far; the first bad line refuses the program (R76). -/
def assembleFrom (start : List (String × Word)) (n : Nat) (bound : Bound) : List String → Except AsmRefusal Program
  | [] => .ok { ops := [], inputs := [] }
  | text :: rest =>
    match parseLine text with
    | .blank => assembleFrom start (n + 1) bound rest
    | .bad => .error { line := n, why := .notALine }
    | .line l =>
      match assembleLine start bound l with
      | .error e => .error { line := n, why := e }
      | .ok a =>
        match assembleFrom start (n + 1) (a.bound ++ bound) rest with
        | .error e => .error e
        | .ok p => .ok { ops := a.ops.map (fun o => (n, o)) ++ p.ops, inputs := a.inputs ++ p.inputs }

/-- The names the host has bound already, with the widths of their values. -/
def boundOf : List (Name × Reading) → Bound
  | [] => []
  | (.user n, r) :: rest => (n, r.width) :: boundOf rest
  | (.inner _ _, _) :: rest => boundOf rest

/-- The assembler: a program's lines with the start values of its input names, after the names bound already. -/
def assemble (start : List (String × Word)) (names : List (Name × Reading)) (lines : List String) :
    Except AsmRefusal Program :=
  assembleFrom start 1 (boundOf names) lines

/-- The value of an input name: the host's start value, unsigned. -/
def inputReading (v : Word) : Reading := { width := bitLength v, view := false, bits := v }

end Sys2Proof.Machine
end

