-- ==== Sys2Proof/Machine/Flags.lean ====
section
/-! DEFINITION. The block has no flags, and no operation sets one (10_state.md R23), so there is no flag to
compute. What a result says beside its bits is how the host reads them: the signed view (40_parity_encoders.md
R130, R131). -/

namespace Sys2Proof.Machine

/-- `toSigned_N(v)`: v − 2^N if v[N−1] = 1, else v (00_scope.md R13). -/
def toSigned {w : Nat} (v : BitVec w) : Int :=
  if v.getLsbD (w - 1) then (v.toNat : Int) - (2 ^ w : Nat) else (v.toNat : Int)

/-- The value's own bits: `result[W−1:0]` (30_encoding.md R66). -/
def Reading.pattern (r : Reading) : BitVec r.width := r.bits.setWidth r.width

/-- The integer the host reads: two's complement of the value's own width when `s` = 1, else unsigned (R66,
R130). -/
def Reading.value (r : Reading) : Int :=
  if r.view then toSigned r.pattern else (r.pattern.toNat : Int)

end Sys2Proof.Machine
end

