-- ==== Sys2Proof/Machine/Operands.lean ====
section
/-! DEFINITION. Operand assembly (30_encoding.md R63), result assembly (R70), and the one way to read and write an
input port (R60). -/

namespace Sys2Proof.Machine

/-- The value a request drives on a unit's input port: `in = operand[W_in−1:0]` (R63). -/
def assembleOperand (c : Component) (operand : Word) : BitVec c.inWidth := operand.setWidth c.inWidth

/-- The result bus for an output: `result[W_out−1:0] = out`, all higher bits 0, whatever `s` is (R70). -/
def assembleResult {w : Nat} (out : BitVec w) : Word := out.setWidth 64

/-- The input port of a unit (R60). -/
def Ports.get (p : Ports) : (c : Component) → InPort c.inWidth
  | .enc_4_8 => p.enc8_in
  | .enc_11_16 => p.enc16_in
  | .enc_26_32 => p.enc32_in
  | .enc_57_64 => p.enc64_in
  | .rep_8x2 => p.rep8x2_in
  | .rep_16x2 => p.rep16x2_in
  | .rep_32x2 => p.rep32x2_in
  | .rep_8x4 => p.rep8x4_in
  | .rep_16x4 => p.rep16x4_in

/-- The ports with one unit's input port changed. -/
def Ports.set (p : Ports) : (c : Component) → InPort c.inWidth → Ports
  | .enc_4_8, v => { p with enc8_in := v }
  | .enc_11_16, v => { p with enc16_in := v }
  | .enc_26_32, v => { p with enc32_in := v }
  | .enc_57_64, v => { p with enc64_in := v }
  | .rep_8x2, v => { p with rep8x2_in := v }
  | .rep_16x2, v => { p with rep16x2_in := v }
  | .rep_32x2, v => { p with rep32x2_in := v }
  | .rep_8x4, v => { p with rep8x4_in := v }
  | .rep_16x4, v => { p with rep16x4_in := v }

/-- The state with one unit's input port changed. -/
def State.setPort (st : State) (c : Component) (v : InPort c.inWidth) : State :=
  { st with ports := st.ports.set c v }

/-- The state in which the host has one more result. -/
def State.record (st : State) (r : Reading) : State :=
  { st with results := r :: st.results }

/-- The state in which the host has bound one more name. -/
def State.bindName (st : State) (n : Name) (r : Reading) : State :=
  { st with names := (n, r) :: st.names }

/-- The state with another list of things the host does next. -/
def State.withScript (st : State) (script : List HostAction) : State :=
  { st with script := script }

end Sys2Proof.Machine
end

