-- ==== Sys2Proof/Machine/Ops.lean ====
section
/-! DEFINITION. The shared encoder and combiner functions (40_parity_encoders.md R100; 41_replication.md R140), the
output function of each unit, and the shared operations over ports: drive, read, evaluate (30_encoding.md R71).
There is no memory to operate on (20_memory.md R40), no exception to take and none to return from
(60_exceptions.md R170, R174, R175). -/

namespace Sys2Proof.Machine

/-- `XOR_{j ∈ S} d[j]`, 0 when S is empty (00_scope.md R13). -/
def xorOver {k : Nat} (d : BitVec k) : List Nat → Bool
  | [] => false
  | j :: js => Bool.xor (d.getLsbD j) (xorOver d js)

/-- The contributions of a matrix's rows, the first at output bit `p`: each row's XOR of data bits, shifted into
its position (R100). -/
def parityBits {k : Nat} (n : Nat) (d : BitVec k) (p : Nat) : ParityMatrix → BitVec n
  | [] => 0#n
  | row :: rows => ((BitVec.ofBool (xorOver d row)).setWidth n <<< p) ||| parityBits n d (p + 1) rows

/-- The codeword of a k-bit data word: the data bits, and each parity bit at its position (R100). -/
def codeword {k : Nat} (n : Nat) (H : ParityMatrix) (d : BitVec k) : BitVec n :=
  d.setWidth n ||| parityBits n d k H

/-- ENC(k, n, H, in): the data word `in[k−1:0]` is read once, and the output is its codeword (R100, R104). -/
def enc (k n : Nat) (H : ParityMatrix) (v : BitVec n) : BitVec n :=
  codeword n H (v.setWidth k)

/-- An encoder under DIRTY_HIGH_BITS (R103): under `any`, an input with a 1 in bits k..n−1 gives a value nothing
fixes. -/
def encUnder (dirty : DirtyHighBits) (k n : Nat) (H : ParityMatrix) (v : BitVec n) : BitVec n :=
  match dirty with
  | .ignore => enc k n H v
  | .any => if v >>> k = 0#n then enc k n H v else Config.dirtyOutput n v

/-- `r` copies of `c` in a word of width `w`: copy j at bits j·n to j·n + n − 1 (R140). -/
def copies (w : Nat) {n : Nat} (c : BitVec n) : Nat → BitVec w
  | 0 => 0#w
  | j + 1 => copies w c j ||| (c.setWidth w <<< (j * n))

/-- REP(n, r, in) (R140). -/
def rep (n r : Nat) (c : BitVec n) : BitVec (r * n) := copies (r * n) c r

/-- `popcount(v)`: the number of 1 bits among the low `m` bits, and of the whole value (R13). -/
def popcountBelow {w : Nat} (v : BitVec w) : Nat → Nat
  | 0 => 0
  | m + 1 => (v.getLsbD m).toNat + popcountBelow v m

/-- `popcount(v)` (R13). -/
def popcount {w : Nat} (v : BitVec w) : Nat := popcountBelow v w

/-- enc8_out (R111). -/
def outEnc_4_8 (cfg : Config) (v : BitVec 8) : BitVec 8 := encUnder cfg.dirtyHighBits 4 8 Config.h4 v

/-- enc16_out (R116). -/
def outEnc_11_16 (cfg : Config) (v : BitVec 16) : BitVec 16 := encUnder cfg.dirtyHighBits 11 16 Config.h11 v

/-- enc32_out (R121). -/
def outEnc_26_32 (cfg : Config) (v : BitVec 32) : BitVec 32 := encUnder cfg.dirtyHighBits 26 32 cfg.h26.rows v

/-- enc64_out (R126). -/
def outEnc_57_64 (cfg : Config) (v : BitVec 64) : BitVec 64 := encUnder cfg.dirtyHighBits 57 64 cfg.h57.rows v

/-- rep8x2_out (R143). -/
def outRep_8x2 (v : BitVec 8) : BitVec 16 := rep 8 2 v

/-- rep16x2_out (R145). -/
def outRep_16x2 (v : BitVec 16) : BitVec 32 := rep 16 2 v

/-- rep32x2_out (R147). -/
def outRep_32x2 (v : BitVec 32) : BitVec 64 := rep 32 2 v

/-- rep8x4_out (R144). -/
def outRep_8x4 (v : BitVec 8) : BitVec 32 := rep 8 4 v

/-- rep16x4_out (R146). -/
def outRep_16x4 (v : BitVec 16) : BitVec 64 := rep 16 4 v

/-- Each unit's function of its input, for a configuration (R60). No unit depends on another (R28). -/
def output (cfg : Config) : (c : Component) → BitVec c.inWidth → BitVec c.outWidth
  | .enc_4_8, v => outEnc_4_8 cfg v
  | .enc_11_16, v => outEnc_11_16 cfg v
  | .enc_26_32, v => outEnc_26_32 cfg v
  | .enc_57_64, v => outEnc_57_64 cfg v
  | .rep_8x2, v => outRep_8x2 v
  | .rep_16x2, v => outRep_16x2 v
  | .rep_32x2, v => outRep_32x2 v
  | .rep_8x4, v => outRep_8x4 v
  | .rep_16x4, v => outRep_16x4 v

/-- The value on a unit's output port, where it has one: the unit's function of the settled input (R60, R205). -/
def State.outPort (st : State) (c : Component) : Option (BitVec c.outWidth) :=
  match st.ports.get c with
  | .undriven => none
  | .changing => none
  | .stable v => some (output st.cfg c v)

/-- What the host has after reading an output: the result bus of R70, to be read in the chosen view (R66). -/
def readingOf (c : Component) (s : Bool) (out : BitVec c.outWidth) : Reading :=
  { width := c.outWidth, view := s, bits := assembleResult out }

/-- The host drives a value on a unit's input port and holds it until it settles (R71, R205). -/
def drivePort (c : Component) (v : Word) (st : State) : State :=
  st.setPort c (.stable (assembleOperand c v))

/-- The host lets go of a unit's input, which is changing from then on (R206). An input that was never driven has no
value to let go of and stays undriven (10_state.md R27). Assumption log 14. -/
def changePort (c : Component) (st : State) : State :=
  match st.ports.get c with
  | .undriven => st
  | .changing => st.setPort c .changing
  | .stable _ => st.setPort c .changing

/-- The host reads a unit's output port: a result, or the faults of R27 and R206. A read changes nothing in the
block (20_memory.md R45). -/
def readPort (c : Component) (s : Bool) (st : State) : Host.Outcome State Fault Refusal :=
  match st.ports.get c with
  | .undriven => .fault (.undrivenRead c)
  | .changing => .fault (.unstableRead c)
  | .stable v => .next (st.record (readingOf c s (output st.cfg c v)))

/-- One operation: the operand is driven on the unit's input port, the output settles and is read, in one atomic
step (R62, R205; 20_memory.md R44). -/
def evaluate (c : Component) (s : Bool) (operand : Word) (st : State) : Host.Outcome State Fault Refusal :=
  readPort c s (drivePort c operand st)

end Sys2Proof.Machine
end

