-- ==== Sys2Proof/Machine/Combiners.lean ====
section
/-! DEFINITION. The five replicated-codeword combiners (41_replication.md). A combiner does not check its input:
any value is replicated (R142). -/

namespace Sys2Proof.Machine

/-- REP_8X2 (R143). -/
def execRep_8x2 (s : Bool) (operand : Word) (st : State) : Host.Outcome State Fault Refusal :=
  evaluate .rep_8x2 s operand st

/-- REP_16X2 (R145). -/
def execRep_16x2 (s : Bool) (operand : Word) (st : State) : Host.Outcome State Fault Refusal :=
  evaluate .rep_16x2 s operand st

/-- REP_32X2 (R147). -/
def execRep_32x2 (s : Bool) (operand : Word) (st : State) : Host.Outcome State Fault Refusal :=
  evaluate .rep_32x2 s operand st

/-- REP_8X4 (R144). -/
def execRep_8x4 (s : Bool) (operand : Word) (st : State) : Host.Outcome State Fault Refusal :=
  evaluate .rep_8x4 s operand st

/-- REP_16X4 (R146). -/
def execRep_16x4 (s : Bool) (operand : Word) (st : State) : Host.Outcome State Fault Refusal :=
  evaluate .rep_16x4 s operand st

end Sys2Proof.Machine
end

