-- ==== Sys2Proof/Machine/Encoders.lean ====
section
/-! DEFINITION. The four parity encoders (40_parity_encoders.md). Each operation is total: it sets no flag and
raises nothing (R105). -/

namespace Sys2Proof.Machine

/-- ENC_4_8 (R111). -/
def execEnc_4_8 (s : Bool) (operand : Word) (st : State) : Host.Outcome State Fault Refusal :=
  evaluate .enc_4_8 s operand st

/-- ENC_11_16 (R116). -/
def execEnc_11_16 (s : Bool) (operand : Word) (st : State) : Host.Outcome State Fault Refusal :=
  evaluate .enc_11_16 s operand st

/-- ENC_26_32 (R121). -/
def execEnc_26_32 (s : Bool) (operand : Word) (st : State) : Host.Outcome State Fault Refusal :=
  evaluate .enc_26_32 s operand st

/-- ENC_57_64 (R126). -/
def execEnc_57_64 (s : Bool) (operand : Word) (st : State) : Host.Outcome State Fault Refusal :=
  evaluate .enc_57_64 s operand st

end Sys2Proof.Machine
end

