-- ==== Sys2Proof/Machine/Dispatch.lean ====
section
/-! DEFINITION. One arm per operation. -/

namespace Sys2Proof.Machine

def exec (i : Instr) (s : State) : Host.Outcome State Fault Refusal :=
  match i with
  | .enc_4_8 view operand => Sys2Proof.Machine.execEnc_4_8 view operand s
  | .enc_11_16 view operand => Sys2Proof.Machine.execEnc_11_16 view operand s
  | .enc_26_32 view operand => Sys2Proof.Machine.execEnc_26_32 view operand s
  | .enc_57_64 view operand => Sys2Proof.Machine.execEnc_57_64 view operand s
  | .rep_8x2 view operand => Sys2Proof.Machine.execRep_8x2 view operand s
  | .rep_16x2 view operand => Sys2Proof.Machine.execRep_16x2 view operand s
  | .rep_32x2 view operand => Sys2Proof.Machine.execRep_32x2 view operand s
  | .rep_8x4 view operand => Sys2Proof.Machine.execRep_8x4 view operand s
  | .rep_16x4 view operand => Sys2Proof.Machine.execRep_16x4 view operand s

end Sys2Proof.Machine
end

