-- ==== Sys2Proof/Machine/HostActions.lean ====
section
/-! DEFINITION. What each action of the host does (30_encoding.md R62, R71, R75), and the configuration of the
model before any operation (70_reset_and_hazards.md R202). -/

namespace Sys2Proof.Machine

/-- The configuration step: the matrices are checked once, and a bad one is refused with the checks it fails (R120,
R125, R177). What is accepted is fixed for the whole run (10_state.md R21). -/
def configure (h26 h57 : ParityMatrix) (dirty : DirtyHighBits) : Host.Outcome State Fault Refusal :=
  if ok26 : check26 h26 = true then
    if ok57 : check57 h57 = true then
      .next (State.powerUp
        { h26 := { rows := h26, accepted := ok26 }, h57 := { rows := h57, accepted := ok57 },
          dirtyHighBits := dirty })
    else .refused (.badMatrix .h57 (failedChecks checks57 h57))
  else .refused (.badMatrix .h26 (failedChecks checks26 h26))

/-- A request: its operation is run, or its reserved identifier refused (R62, R67). -/
def runRequest (r : Request) (st : State) : Host.Outcome State Fault Refusal :=
  match decode r with
  | .ok i => exec i st
  | .error (.reservedOpsel o) => .refused (.reservedOpsel o)

/-- The value an assembled operation's operand has: a literal's, or a bound name's bits (R75). -/
def operandValue (st : State) : AsmOperand → Option Word
  | .const v => some v
  | .name n => (st.names.lookup n).map Reading.bits

/-- Binds a name to the result read last. -/
def bindLast (n : Name) (st : State) : State :=
  match st.results with
  | [] => st
  | r :: _ => st.bindName n r

/-- An assembled operation of a line: the request is run and its result bound to the name (R75). A name that is
not bound, or bound already, is refused as the assembler refuses it (R76): assumption log 16. -/
def runOp (line : Nat) (o : AsmOp) (st : State) : Host.Outcome State Fault Refusal :=
  match st.names.lookup o.dest, operandValue st o.operand with
  | some _, _ => .refused (.asm line .nameBoundTwice)
  | none, none => .refused (.asm line .nameNotBound)
  | none, some v =>
    match runRequest { opsel := o.opsel, operand := v } st with
    | .next st' => .next (bindLast o.dest st')
    | .fault e => .fault e
    | .refused e => .refused e

/-- Binds the input names of a program to their start values (R75). -/
def bindInputs : List (String × Word) → State → State
  | [], st => st
  | (n, v) :: rest, st => bindInputs rest (st.bindName (.user n) (inputReading v))

/-- A program is assembled whole; its operations then stand first among what the host does next (R75, R76). -/
def loadProgram (start : List (String × Word)) (lines : List String) (st : State) :
    Host.Outcome State Fault Refusal :=
  match assemble start st.names lines with
  | .error e => .refused (.asm e.line e.why)
  | .ok p =>
    .next ((bindInputs p.inputs st).withScript (p.ops.map (fun o => HostAction.op o.1 o.2) ++ st.script))

/-- What one action of the host does. -/
def perform (a : HostAction) (st : State) : Host.Outcome State Fault Refusal :=
  match a with
  | .request r => runRequest r st
  | .op line o => runOp line o st
  | .load start lines => loadProgram start lines st
  | .drive c v => .next (drivePort c v st)
  | .change c => .next (changePort c st)
  | .read c s => readPort c s st

end Sys2Proof.Machine
end

