-- ==== Sys2Proof/Machine/Step.lean ====
section
/-! DEFINITION. One step: the host's next action. The block fetches nothing and has no program counter (10_state.md
R22). -/

namespace Sys2Proof.Machine

/-- The host's next action is taken from the script and performed. With nothing left to do the run has ended
(70_reset_and_hazards.md R211), and the block, which keeps nothing of its own, stays as it is: assumption log 6. -/
def step (s : State) : Host.Outcome State Fault Refusal :=
  match s.script with
  | [] => .next s
  | a :: rest => perform a (s.withScript rest)

/-- The state in which the host's next action is the request of a table word: assumption logs 8 and 9. -/
def State.withFetchWord (s : State) (nbits w : Nat) : State :=
  s.withScript (.request (Request.ofTableWord nbits w) :: s.script)

end Sys2Proof.Machine
end

