-- ==== Sys2Proof/Safety.lean ====
section
/-! DEFINITION. A run and what is observed of it (70_reset_and_hazards.md R211), the invariant of the model's
state, and what a safe run is. -/

namespace Sys2Proof.Machine

/-- What a run is observed to give: the names with their values, or the first fault or refusal (R211). A run of
requests (30_encoding.md R62) has no names; what is observed of it is the list of the results read, newest first, and
the model keeps that list in the observation of every run, of named programs too. That list is the model's choice:
assumption log 22. -/
inductive Observation where
  | ended (names : List (Name × Reading)) (results : List Reading)
  | faulted (r : Fault)
  | refused (r : Refusal)
deriving DecidableEq, Repr

/-- The observation of an outcome: of a state only where the run has ended, when the host has nothing left to do and
so the last result has been read (R211). -/
def observe : Host.Outcome State Fault Refusal → Option Observation
  | .next s =>
    match s.script with
    | [] => some (.ended s.names s.results)
    | _ :: _ => none
  | .fault r => some (.faulted r)
  | .refused r => some (.refused r)

/-- `k` steps, stopping at the first fault or refusal. A run of fewer actions has ended by then and stays as it
ended. -/
def run : Nat → State → Host.Outcome State Fault Refusal
  | 0, s => .next s
  | k + 1, s =>
    match step s with
    | .next t => run k t
    | .fault r => .fault r
    | .refused r => .refused r

/-- At most how many steps an action of the host takes: a line of a program stands for at most three operations
(30_encoding.md R80). -/
def HostAction.stepBound : HostAction → Nat
  | .load _ lines => 1 + 3 * lines.length
  | .request _ => 1
  | .op _ _ => 1
  | .drive _ _ => 1
  | .change _ => 1
  | .read _ _ => 1

/-- At most how many steps a script takes. A run is a finite list of actions (R211). -/
def scriptBound : List HostAction → Nat
  | [] => 0
  | a :: rest => HostAction.stepBound a + scriptBound rest

/-- The observation of a whole run, taken at its end or at its first fault or refusal (R211). -/
def observeRun (s : State) : Option Observation := observe (run (scriptBound s.script) s)

/-- A value the host has uses only its own bits: `result[63:W]` = 0 (30_encoding.md R70). -/
def Reading.wellFormed (r : Reading) : Prop := r.width ≤ 64 ∧ r.bits.toNat < 2 ^ r.width

/-- The invariant: every value the host has is well-formed (R70), and each name is bound once (R75). -/
structure State.Inv (s : State) : Prop where
  results_wellFormed : ∀ r ∈ s.results, r.wellFormed
  names_wellFormed : ∀ b ∈ s.names, b.2.wellFormed
  names_once : (s.names.map Prod.fst).Nodup

/-- A safe run: no number of steps ends in a fault or a refusal. -/
def State.Safe (s : State) : Prop := ∀ k, ∃ t, run k s = .next t

end Sys2Proof.Machine
end

