-- ==== Sys2Proof/Certificates/Slice0/Obligations.lean ====
section
/-! DEFINITION. The statements about the model, with the expressions they are written in. Each docstring names the
rule of spec/ it formalises. Expressions that a rule writes out (a concatenation, the parity of a set of bits) are
written out here too, not taken from the machine's own definitions. -/

namespace Sys2Proof.Statements

open Sys2Proof.Machine

/-- The state after an operation on unit `c` whose output is `out`: the operand's low bits are on the unit's input
port (30_encoding.md R63), the host has one more result, zero above the output (R70), and all else is as it was. -/
def after (c : Component) (s : Bool) (operand : Word) (out : BitVec c.outWidth) (st : State) : State :=
  { st with
    ports := st.ports.set c (.stable (operand.setWidth c.inWidth))
    results := { width := c.outWidth, view := s, bits := out.setWidth 64 } :: st.results }

/-- Rule R100 gives an encoder's output: DIRTY_HIGH_BITS has its normative value, or no input bit from k to n − 1 is
1 (40_parity_encoders.md R103). -/
def R100Applies (dirty : DirtyHighBits) (k n : Nat) (v : Word) : Prop :=
  dirty = .ignore ∨ ∀ j, k ≤ j → j < n → v.getLsbD j = false

/-- The XOR of the bits at the indices of a list: 1 when an odd number of them are 1 (00_scope.md R13). -/
def parityOf (bit : Nat → Bool) (S : List Nat) : Bool := decide (S.countP bit % 2 = 1)

/-- The number of 1 bits of a value, as the number of positions that hold a 1 (R13). -/
def ones {w : Nat} (v : BitVec w) : Nat := (List.range w).countP (fun j => v.getLsbD j)

/-- The four encoders. -/
def encoders : List Component := [.enc_4_8, .enc_11_16, .enc_26_32, .enc_57_64]

/-- The number k of data bits of an encoder (R7). -/
def dataWidth : Component → Nat
  | .enc_4_8 => 4
  | .enc_11_16 => 11
  | .enc_26_32 => 26
  | .enc_57_64 => 57
  | .rep_8x2 | .rep_16x2 | .rep_32x2 | .rep_8x4 | .rep_16x4 => 0

/-- A matrix for k data bits and an n-bit codeword: n − k rows, each a set of indices below k (R100). -/
def IsMatrix (k n : Nat) (H : ParityMatrix) : Prop :=
  k + H.length = n ∧ ∀ row ∈ H, row.Nodup ∧ ∀ j ∈ row, j < k

/-- Condition (i) of R108: every data bit lies in at least 3 rows. -/
def ColumnsHeavy (k : Nat) (H : ParityMatrix) : Prop :=
  ∀ j < k, 3 ≤ H.countP (fun row => row.contains j)

/-- Condition (ii) of R108: the columns of two distinct data bits differ in at least 2 rows. -/
def ColumnsApart (k : Nat) (H : ParityMatrix) : Prop :=
  ∀ a < k, ∀ b < k, a ≠ b → 2 ≤ H.countP (fun row => row.contains a != row.contains b)

/-- Condition (iii) of R108: the columns of three distinct data bits do not XOR to 0. -/
def NoTripleCancels (k : Nat) (H : ParityMatrix) : Prop :=
  ∀ a < k, ∀ b < k, ∀ c < k, a ≠ b → a ≠ c → b ≠ c →
    ∃ row ∈ H, (row.contains a ^^ row.contains b ^^ row.contains c) = true

/-- The rows that list data bit `j`, by number: the column of `j` as a set. -/
def rowsWith (H : ParityMatrix) (j : Nat) : List Nat :=
  (List.range H.length).filter (fun i => (H.getD i []).contains j)

/-- The ENC_4_8 codeword of a data word given as a number. -/
def enc4 (d : Nat) : BitVec 8 := enc 4 8 Config.h4 (BitVec.ofNat 8 d)

/-- The ENC_11_16 codeword of a data word given as a number. -/
def enc11 (d : Nat) : BitVec 16 := enc 11 16 Config.h11 (BitVec.ofNat 16 d)

/-- R111's pseudocode: parity bits 7 to 4 above the data word. -/
def word4 (d : Word) : BitVec 8 :=
  BitVec.ofBool (d.getLsbD 1 ^^ d.getLsbD 2 ^^ d.getLsbD 3) ++
    BitVec.ofBool (d.getLsbD 0 ^^ d.getLsbD 1 ^^ d.getLsbD 2) ++
    BitVec.ofBool (d.getLsbD 0 ^^ d.getLsbD 1 ^^ d.getLsbD 3) ++
    BitVec.ofBool (d.getLsbD 0 ^^ d.getLsbD 2 ^^ d.getLsbD 3) ++ d.setWidth 4

/-- R116's pseudocode: parity bits 15 to 11 above the data word. -/
def word11 (d : Word) : BitVec 16 :=
  BitVec.ofBool (d.getLsbD 0 ^^ d.getLsbD 2 ^^ d.getLsbD 3 ^^ d.getLsbD 5 ^^ d.getLsbD 6 ^^ d.getLsbD 9 ^^
      d.getLsbD 10) ++
    BitVec.ofBool (d.getLsbD 0 ^^ d.getLsbD 1 ^^ d.getLsbD 2 ^^ d.getLsbD 4 ^^ d.getLsbD 8 ^^ d.getLsbD 9 ^^
      d.getLsbD 10) ++
    BitVec.ofBool (d.getLsbD 0 ^^ d.getLsbD 2 ^^ d.getLsbD 4 ^^ d.getLsbD 5 ^^ d.getLsbD 6 ^^ d.getLsbD 7 ^^
      d.getLsbD 8) ++
    BitVec.ofBool (d.getLsbD 0 ^^ d.getLsbD 1 ^^ d.getLsbD 3 ^^ d.getLsbD 6 ^^ d.getLsbD 7 ^^ d.getLsbD 8 ^^
      d.getLsbD 10) ++
    BitVec.ofBool (d.getLsbD 0 ^^ d.getLsbD 1 ^^ d.getLsbD 3 ^^ d.getLsbD 4 ^^ d.getLsbD 5 ^^ d.getLsbD 7 ^^
      d.getLsbD 9) ++ d.setWidth 11

/-- The integer the host reads from an output of unit `c` with `s` = 1 (30_encoding.md R66). -/
def signedOf (c : Component) (out : BitVec c.outWidth) : Int :=
  (⟨c.outWidth, true, out.setWidth 64⟩ : Reading).value

/-- P1 to P5 of R120. -/
def AcceptableH26 (H : ParityMatrix) : Prop :=
  H.length = 6 ∧ (∀ row ∈ H, row.Nodup ∧ ∀ j ∈ row, j < 26) ∧ (∀ row ∈ H, row.length = 15) ∧
    ColumnsHeavy 26 H ∧ ColumnsApart 26 H ∧ NoTripleCancels 26 H

/-- Q1 to Q4 of R125. -/
def AcceptableH57 (H : ParityMatrix) : Prop :=
  H.length = 7 ∧ (∀ row ∈ H, row.Nodup ∧ ∀ j ∈ row, j < 57) ∧
    ColumnsHeavy 57 H ∧ ColumnsApart 57 H ∧ NoTripleCancels 57 H

/-- The host's next actions are the operations of the pseudo-operation `mnemonic` (30_encoding.md R80) on the
literal `v`, bound to `dest`, and nothing after them. -/
def composite (mnemonic dest : String) (s : Bool) (v : Word) (line : Nat) (st : State) : State :=
  st.withScript ((expand dest s (.const v) ((chainOf mnemonic).getD [])).map (fun o => HostAction.op line o))

/-- No name of a pseudo-operation on `dest` is bound yet. -/
def Fresh (dest : String) (st : State) : Prop :=
  ∀ b ∈ st.names, b.1 ≠ .user dest ∧ ∀ k, b.1 ≠ .inner dest k

/-- The identifiers of the operations a line of text stands for, in order (R75, R80): `.s` is on the last one. -/
def opselsOfLine (text : String) : List Opsel :=
  match parseLine text with
  | .line (.op _ m s _) =>
    match chainOf m with
    | some chain => chain.dropLast.map (fun c => c.opsel false) ++ chain.getLast?.toList.map (fun c => c.opsel s)
    | none => []
  | .line (.input _) => []
  | .blank => []
  | .bad => []

/-- What the host has from an operation on unit `c` whose input is `v`. -/
def resultOf (cfg : Config) (c : Component) (s : Bool) (v : BitVec c.inWidth) : Reading :=
  ⟨c.outWidth, s, (output cfg c v).setWidth 64⟩

/-- `k` steps from `st` end the run, with exactly the listed new results read, the newest first, and `dest` bound to
the newest. -/
def EndsBound (k : Nat) (st : State) (dest : String) (results : List Reading) : Prop :=
  ∃ t, run k st = .next t ∧ t.script = [] ∧ t.results = results ++ st.results ∧
    t.names.lookup (.user dest) = results.head?

end Sys2Proof.Statements

open Sys2Proof Sys2Proof.Machine Sys2Proof.Statements

/-! ### Encoding and dispatch -/

/-- 30_encoding.md R62, R64, R65, R69: the decoder and the encoder agree in both directions, over every request and
every operation. -/
def Obligations.DecodeAndEncodeAgree : Prop :=
  (∀ i : Instr, decode (encode i) = .ok i) ∧ ∀ (r : Request) (i : Instr), decode r = .ok i → encode i = r

/-- R65's table: the identifier, with either value of `s`, and the port widths of each of the nine operations, and
the seven reserved rows. -/
def Obligations.OperationMapMatchesTable : Prop :=
  (∀ (s : Bool) (v : Word),
    decode ⟨BitVec.ofBool s ++ 0x0#4, v⟩ = .ok (.enc_4_8 s v) ∧
    decode ⟨BitVec.ofBool s ++ 0x1#4, v⟩ = .ok (.enc_11_16 s v) ∧
    decode ⟨BitVec.ofBool s ++ 0x2#4, v⟩ = .ok (.enc_26_32 s v) ∧
    decode ⟨BitVec.ofBool s ++ 0x3#4, v⟩ = .ok (.enc_57_64 s v) ∧
    decode ⟨BitVec.ofBool s ++ 0x8#4, v⟩ = .ok (.rep_8x2 s v) ∧
    decode ⟨BitVec.ofBool s ++ 0x9#4, v⟩ = .ok (.rep_16x2 s v) ∧
    decode ⟨BitVec.ofBool s ++ 0xA#4, v⟩ = .ok (.rep_32x2 s v) ∧
    decode ⟨BitVec.ofBool s ++ 0xC#4, v⟩ = .ok (.rep_8x4 s v) ∧
    decode ⟨BitVec.ofBool s ++ 0xD#4, v⟩ = .ok (.rep_16x4 s v) ∧
    ∀ code ∈ [0x4#4, 0x5#4, 0x6#4, 0x7#4, 0xB#4, 0xE#4, 0xF#4],
      decode ⟨BitVec.ofBool s ++ code, v⟩ = .error (.reservedOpsel (BitVec.ofBool s ++ code))) ∧
  ([Component.enc_4_8, .enc_11_16, .enc_26_32, .enc_57_64, .rep_8x2, .rep_16x2, .rep_32x2, .rep_8x4, .rep_16x4].map
    (fun c => (c.inWidth, c.outWidth))) =
    [(8, 8), (16, 16), (32, 32), (64, 64), (8, 16), (16, 32), (32, 64), (8, 32), (16, 64)]

/-- R67 and R68: a request is refused, with no result, exactly when opsel[3:0] is one of the seven reserved codes;
of the 32 values of opsel, 14 are reserved and 18 name an operation. -/
def Obligations.ReservedIdentifiersAreRefused : Prop :=
  (∀ (r : Request) (rest : List HostAction) (st : State),
    (r.opsel.setWidth 4 ∈ [0x4#4, 0x5#4, 0x6#4, 0x7#4, 0xB#4, 0xE#4, 0xF#4] →
      step (st.withScript (.request r :: rest)) = .refused (.reservedOpsel r.opsel)) ∧
    (r.opsel.setWidth 4 ∉ [0x4#4, 0x5#4, 0x6#4, 0x7#4, 0xB#4, 0xE#4, 0xF#4] →
      ∃ t, step (st.withScript (.request r :: rest)) = .next t)) ∧
  ((List.range 32).countP (fun o => (decodeTableWord 5 o).isNone)) = 14 ∧
  ((List.range 32).countP (fun o => (decodeTableWord 5 o).isSome)) = 18

/-- 41_replication.md R141: with `cls` = 1, `sel` selecting n = 8, 16, 32 or 64 and `x` selecting r = 2 or 4, the
request names an operation exactly when r·n is at most REPL_MAX_WIDTH = 64. -/
def Obligations.CombinersFitTheMaximumWidth : Prop :=
  ∀ r : Request, r.opsel.getLsbD 3 = true →
    ((∃ i, decode r = .ok i) ↔
      (if r.opsel.getLsbD 2 then 4 else 2) * (8 * 2 ^ (r.opsel.setWidth 2).toNat) ≤ 64)

/-- Words written out from R64 and R65 (`s`, `cls`, `x`, `sel`), one for each operation, decode to the operation
they stand for; a sanity statement. -/
def Obligations.SampleWordsDecode : Prop :=
  decodeTableWord 8 0b00000 = some (.enc_4_8 false 0) ∧ decodeTableWord 8 0b10001 = some (.enc_11_16 true 0) ∧
  decodeTableWord 8 0b00010 = some (.enc_26_32 false 0) ∧ decodeTableWord 8 0b10011 = some (.enc_57_64 true 0) ∧
  decodeTableWord 8 0b01000 = some (.rep_8x2 false 0) ∧ decodeTableWord 8 0b11001 = some (.rep_16x2 true 0) ∧
  decodeTableWord 8 0b01010 = some (.rep_32x2 false 0) ∧ decodeTableWord 8 0b11100 = some (.rep_8x4 true 0) ∧
  decodeTableWord 8 0b01101 = some (.rep_16x4 false 0) ∧ decodeTableWord 8 0b00100 = none

/-- R62: when the host's next action is a request that decodes to an operation, the step is that operation, run in
the state whose script has moved past the request. -/
def Obligations.StepRunsTheDecodedRequest : Prop :=
  ∀ (s : State) (r : Request) (i : Instr) (rest : List HostAction),
    s.script = .request r :: rest → decode r = .ok i → step s = exec i (s.withScript rest)

/-- The model's own table words (assumption logs 8 and 9): when the decoder reads an operation from a table word,
the next step of the state with that word placed runs exactly that operation, in the state as it was. -/
def Obligations.StepRunsThePlacedWord : Prop :=
  ∀ (s : State) (nbits w : Nat) (i : Instr),
    decodeTableWord nbits w = some i → step (s.withFetchWord nbits w) = exec i s

/-! ### The shared encoder -/

/-- 40_parity_encoders.md R100 and R101: bits 0 to k − 1 of the output are the input's, and bit k + i is the XOR of
the data bits that row i lists. -/
def Obligations.SharedEncoderAlgorithm : Prop :=
  ∀ (k n : Nat) (H : ParityMatrix) (v : BitVec n), IsMatrix k n H →
    (∀ j < k, (enc k n H v).getLsbD j = v.getLsbD j) ∧
    ∀ i < H.length, (enc k n H v).getLsbD (k + i) = parityOf (fun j => v.getLsbD j) (H.getD i [])

/-- R106: linearity over GF(2), the output for a single data bit, and the output for any data word as the XOR of the
outputs for its bits. -/
def Obligations.EncoderIsLinear : Prop :=
  ∀ (k n : Nat) (H : ParityMatrix), IsMatrix k n H →
    (∀ a b : BitVec k,
      enc k n H ((a ^^^ b).setWidth n) = enc k n H (a.setWidth n) ^^^ enc k n H (b.setWidth n)) ∧
    (∀ j < k, ∀ p, (enc k n H (1#n <<< j)).getLsbD p =
      (decide (p = j) || decide (k ≤ p) && (H.getD (p - k) []).contains j)) ∧
    ∀ d : BitVec k, enc k n H (d.setWidth n) =
      ((List.range k).filter (fun j => d.getLsbD j)).foldl (fun acc j => acc ^^^ enc k n H (1#n <<< j)) 0#n

/-- R107: each of the four encoders gives 0 for 0, whatever the configuration is. -/
def Obligations.EncodersMapZeroToZero : Prop :=
  ∀ (cfg : Config), ∀ c ∈ encoders, output cfg c 0 = 0

/-- R108: for any matrix, distinct data words have codewords at distance at least 4 exactly when every nonzero data
word has a codeword of weight at least 4, and exactly when the three column conditions hold. -/
def Obligations.DistanceFourExactlyByColumns : Prop :=
  ∀ (k n : Nat) (H : ParityMatrix), IsMatrix k n H →
    ((∀ a b : BitVec k, a ≠ b → 4 ≤ ones (enc k n H (a.setWidth n) ^^^ enc k n H (b.setWidth n))) ↔
      ∀ d : BitVec k, d ≠ 0 → 4 ≤ ones (enc k n H (d.setWidth n))) ∧
    ((∀ d : BitVec k, d ≠ 0 → 4 ≤ ones (enc k n H (d.setWidth n))) ↔
      ColumnsHeavy k H ∧ ColumnsApart k H ∧ NoTripleCancels k H)

/-- R108 for the hardware: with H4, H11 and every configuration that is accepted, two inputs with distinct data words
give outputs at distance at least 4, in each of the four encoders. -/
def Obligations.EncodersHaveDistanceFour : Prop :=
  ∀ (cfg : Config), ∀ c ∈ encoders, ∀ a b : BitVec c.inWidth,
    (cfg.dirtyHighBits = .ignore ∨ a >>> dataWidth c = 0 ∧ b >>> dataWidth c = 0) →
    a.setWidth (dataWidth c) ≠ b.setWidth (dataWidth c) → 4 ≤ ones (output cfg c a ^^^ output cfg c b)

/-! ### The encoders' results -/

/-- R111: ENC_4_8, with its identifier, its output as the rule's pseudocode writes it, and the sign of the signed
view. -/
def Obligations.Enc4To8Result : Prop :=
  ∀ (s : Bool) (v : Word) (st : State), R100Applies st.cfg.dirtyHighBits 4 8 v →
    decode ⟨BitVec.ofBool s ++ 0x0#4, v⟩ = .ok (.enc_4_8 s v) ∧
    exec (.enc_4_8 s v) st = .next (after .enc_4_8 s v (word4 v) st) ∧
    (signedOf .enc_4_8 (word4 v) < 0 ↔ (v.getLsbD 1 ^^ v.getLsbD 2 ^^ v.getLsbD 3) = true)

/-- R116: ENC_11_16, with its identifier, its output as the rule's pseudocode writes it, and the rule's two signed
readings. -/
def Obligations.Enc11To16Result : Prop :=
  (∀ (s : Bool) (v : Word) (st : State), R100Applies st.cfg.dirtyHighBits 11 16 v →
    decode ⟨BitVec.ofBool s ++ 0x1#4, v⟩ = .ok (.enc_11_16 s v) ∧
    exec (.enc_11_16 s v) st = .next (after .enc_11_16 s v (word11 v) st)) ∧
  word11 0x7FF#64 = 0xFFFF#16 ∧ signedOf .enc_11_16 0xFFFF#16 = -1 ∧
  word11 0x001#64 = 0xF801#16 ∧ signedOf .enc_11_16 0xF801#16 = -2047

/-- R121: ENC_26_32, for every accepted H26, with its identifier; and the all-ones data word, whose codeword is all
ones whatever accepted H26 is (by P3 of R120). -/
def Obligations.Enc26To32Result : Prop :=
  (∀ (s : Bool) (v : Word) (st : State), R100Applies st.cfg.dirtyHighBits 26 32 v →
    decode ⟨BitVec.ofBool s ++ 0x2#4, v⟩ = .ok (.enc_26_32 s v) ∧
    ∃ out : BitVec 32, exec (.enc_26_32 s v) st = .next (after .enc_26_32 s v out st) ∧
      (∀ j < 26, out.getLsbD j = v.getLsbD j) ∧
      ∀ i < 6, out.getLsbD (26 + i) = parityOf (fun j => v.getLsbD j) (st.cfg.h26.rows.getD i [])) ∧
  ∀ cfg : Config, output cfg .enc_26_32 0x3FFFFFF#32 = 0xFFFFFFFF#32

/-- R126: ENC_57_64, for every accepted H57, with its identifier. -/
def Obligations.Enc57To64Result : Prop :=
  ∀ (s : Bool) (v : Word) (st : State), R100Applies st.cfg.dirtyHighBits 57 64 v →
    decode ⟨BitVec.ofBool s ++ 0x3#4, v⟩ = .ok (.enc_57_64 s v) ∧
    ∃ out : BitVec 64, exec (.enc_57_64 s v) st = .next (after .enc_57_64 s v out st) ∧
      (∀ j < 57, out.getLsbD j = v.getLsbD j) ∧
      ∀ i < 7, out.getLsbD (57 + i) = parityOf (fun j => v.getLsbD j) (st.cfg.h57.rows.getD i [])

/-- R103: under DIRTY_HIGH_BITS = `ignore`, operands that agree on the data bits give an encoder's port the same
output; under both values of the parameter, an input with no dirty high bit gives the output it has under `ignore`;
and under `any` an operation on a dirty input still answers, with some output (a free value: assumption log 3). -/
def Obligations.HighInputBitsAreIgnored : Prop :=
  (∀ (cfg : Config), ∀ c ∈ encoders, ∀ a b : BitVec c.inWidth, cfg.dirtyHighBits = .ignore →
    a.setWidth (dataWidth c) = b.setWidth (dataWidth c) → output cfg c a = output cfg c b) ∧
  (∀ (cfg : Config), ∀ c ∈ encoders, ∀ a : BitVec c.inWidth, a >>> dataWidth c = 0 →
    output cfg c a = output { cfg with dirtyHighBits := .ignore } c a) ∧
  ∀ (st : State), ∀ c ∈ encoders, ∀ (s : Bool) (v : Word), st.cfg.dirtyHighBits = .any →
    ∃ out, exec (c.instr s v) st = .next (after c s v out st)

/-- R112: the derived properties of ENC_4_8, over its 16 data words and 4 columns. -/
def Obligations.Enc4To8Properties : Prop :=
  (∀ a < 4, (rowsWith Config.h4 a).length = 3) ∧
  (∀ a < 4, ∀ b < 4, a ≠ b →
    (List.range 4).countP (fun i => (rowsWith Config.h4 a).contains i != (rowsWith Config.h4 b).contains i) = 2) ∧
  (∀ a < 4, ∀ b < 4, ∀ c < 4, a ≠ b → a ≠ c → b ≠ c →
    (List.range 4).countP (fun i => (rowsWith Config.h4 a).contains i ^^ (rowsWith Config.h4 b).contains i ^^
      (rowsWith Config.h4 c).contains i) = 1) ∧
  (∀ a < 16, ∀ b < 16, a ≠ b → 4 ≤ ones (enc4 a ^^^ enc4 b)) ∧
  (∃ a < 16, ∃ b < 16, a ≠ b ∧ ones (enc4 a ^^^ enc4 b) = 4) ∧
  (List.range 16).countP (fun d => ones (enc4 d) = 0) = 1 ∧
  (List.range 16).countP (fun d => ones (enc4 d) = 4) = 14 ∧
  (List.range 16).countP (fun d => ones (enc4 d) = 8) = 1 ∧
  (∀ d < 16, ones (enc4 d) % 2 = 0) ∧
  ∀ d < 16, enc4 (d ^^^ 0xF) = enc4 d ^^^ 0xFF#8

/-- R117: the derived properties of ENC_11_16: its columns, its rows, the weights of its 2048 codewords, and its
minimum distance, which is exactly 4. -/
def Obligations.Enc11To16Properties : Prop :=
  rowsWith Config.h11 0 = [0, 1, 2, 3, 4] ∧
  (∀ j < 11, j ≠ 0 → (rowsWith Config.h11 j).length = 3) ∧
  (∀ a < 11, ∀ b < 11, a ≠ b → rowsWith Config.h11 a ≠ rowsWith Config.h11 b) ∧
  ColumnsHeavy 11 Config.h11 ∧ ColumnsApart 11 Config.h11 ∧ NoTripleCancels 11 Config.h11 ∧
  (∀ d < 2048, ones (enc11 d) % 2 = 0) ∧
  ([0, 4, 6, 8, 10, 12, 16].map (fun w => (List.range 2048).countP (fun d => ones (enc11 d) = w)) =
    [1, 140, 448, 870, 448, 140, 1]) ∧
  (∀ row ∈ Config.h11, row.length = 7) ∧
  (∀ a < 2048, ∀ b < 2048, a ≠ b → 4 ≤ ones (enc11 a ^^^ enc11 b)) ∧
  ∃ a < 2048, ∃ b < 2048, a ≠ b ∧ ones (enc11 a ^^^ enc11 b) = 4

/-- V5, from R106 with P4 and Q3: one data bit alone passes through, and its parity field has weight at least 3, in
ENC_26_32 and ENC_57_64, whatever the accepted matrices are. -/
def Obligations.SingleBitParityWeights : Prop :=
  ∀ cfg : Config,
    (∀ j < 26, (output cfg .enc_26_32 (1#32 <<< j)).setWidth 26 = 1#26 <<< j ∧
      3 ≤ ones (output cfg .enc_26_32 (1#32 <<< j) >>> 26)) ∧
    ∀ j < 57, (output cfg .enc_57_64 (1#64 <<< j)).setWidth 57 = 1#57 <<< j ∧
      3 ≤ ones (output cfg .enc_57_64 (1#64 <<< j) >>> 57)

/-! ### The combiners' results -/

/-- 41_replication.md R143: REP_8X2, with its identifier and the rule's signed reading. -/
def Obligations.Rep8x2Result : Prop :=
  (∀ (s : Bool) (v : Word) (st : State),
    decode ⟨BitVec.ofBool s ++ 0x8#4, v⟩ = .ok (.rep_8x2 s v) ∧
    exec (.rep_8x2 s v) st =
      .next (after .rep_8x2 s v (v.setWidth 8 ++ v.setWidth 8) st)) ∧
  signedOf .rep_8x2 0xFFFF#16 = -1

/-- R144: REP_8X4, with its identifier and the rule's signed reading. -/
def Obligations.Rep8x4Result : Prop :=
  (∀ (s : Bool) (v : Word) (st : State),
    decode ⟨BitVec.ofBool s ++ 0xC#4, v⟩ = .ok (.rep_8x4 s v) ∧
    exec (.rep_8x4 s v) st =
      .next (after .rep_8x4 s v (v.setWidth 8 ++ v.setWidth 8 ++ v.setWidth 8 ++ v.setWidth 8) st)) ∧
  signedOf .rep_8x4 0x80808080#32 = -2139062144

/-- R145: REP_16X2, with its identifier. -/
def Obligations.Rep16x2Result : Prop :=
  ∀ (s : Bool) (v : Word) (st : State),
    decode ⟨BitVec.ofBool s ++ 0x9#4, v⟩ = .ok (.rep_16x2 s v) ∧
    exec (.rep_16x2 s v) st =
      .next (after .rep_16x2 s v (v.setWidth 16 ++ v.setWidth 16) st)

/-- R146: REP_16X4, with its identifier and the rule's signed reading. -/
def Obligations.Rep16x4Result : Prop :=
  (∀ (s : Bool) (v : Word) (st : State),
    decode ⟨BitVec.ofBool s ++ 0xD#4, v⟩ = .ok (.rep_16x4 s v) ∧
    exec (.rep_16x4 s v) st =
      .next (after .rep_16x4 s v (v.setWidth 16 ++ v.setWidth 16 ++ v.setWidth 16 ++ v.setWidth 16) st)) ∧
  signedOf .rep_16x4 0xFFFFFFFFFFFFFFFF#64 = -1

/-- R147: REP_32X2, with its identifier and the rule's signed reading. -/
def Obligations.Rep32x2Result : Prop :=
  (∀ (s : Bool) (v : Word) (st : State),
    decode ⟨BitVec.ofBool s ++ 0xA#4, v⟩ = .ok (.rep_32x2 s v) ∧
    exec (.rep_32x2 s v) st =
      .next (after .rep_32x2 s v (v.setWidth 32 ++ v.setWidth 32) st)) ∧
  signedOf .rep_32x2 0x8000000080000000#64 < 0

/-- R140: for every n and r, bit j·n + p of the output is bit p of the input, for each copy j, so every copy is the
input. -/
def Obligations.CombinerCopiesItsInput : Prop :=
  ∀ (n r : Nat) (c : BitVec n), ∀ j < r, ((rep n r c) >>> (j * n)).setWidth n = c

/-- R150: distance scales exactly, for every n and r. -/
def Obligations.ReplicationScalesDistance : Prop :=
  ∀ (n r : Nat) (a b : BitVec n), ones (rep n r a ^^^ rep n r b) = r * ones (a ^^^ b)

/-- R152: the signed value of a combiner's output is negative exactly when the input's top bit is 1. -/
def Obligations.ReplicatedSignIsTheInputs : Prop :=
  ∀ (n r : Nat) (c : BitVec n), 0 < n → 0 < r → ((rep n r c).toInt < 0 ↔ c.getLsbD (n - 1) = true)

/-- R153: minimum distances of the replicated codes, for every accepted configuration: 8 and 16 for two and four
copies, exactly 8 and 16 for ENC_4_8 and ENC_11_16, and exactly 32 for eight copies of an ENC_4_8 codeword. -/
def Obligations.ReplicatedMinimumDistances : Prop :=
  ∀ cfg : Config, cfg.dirtyHighBits = .ignore →
    (∀ c ∈ encoders, ∀ a b : BitVec c.inWidth, a.setWidth (dataWidth c) ≠ b.setWidth (dataWidth c) →
      8 ≤ ones (rep _ 2 (output cfg c a) ^^^ rep _ 2 (output cfg c b)) ∧
      16 ≤ ones (rep _ 4 (output cfg c a) ^^^ rep _ 4 (output cfg c b))) ∧
    (∀ c ∈ [Component.enc_4_8, .enc_11_16], ∃ a b : BitVec c.inWidth,
      a.setWidth (dataWidth c) ≠ b.setWidth (dataWidth c) ∧
      ones (rep _ 2 (output cfg c a) ^^^ rep _ 2 (output cfg c b)) = 8 ∧
      ones (rep _ 4 (output cfg c a) ^^^ rep _ 4 (output cfg c b)) = 16) ∧
    (∀ a b : BitVec 8, a.setWidth 4 ≠ b.setWidth 4 →
      32 ≤ ones (rep 32 2 (rep 8 4 (output cfg .enc_4_8 a)) ^^^ rep 32 2 (rep 8 4 (output cfg .enc_4_8 b)))) ∧
    ∃ a b : BitVec 8, a.setWidth 4 ≠ b.setWidth 4 ∧
      ones (rep 32 2 (rep 8 4 (output cfg .enc_4_8 a)) ^^^ rep 32 2 (rep 8 4 (output cfg .enc_4_8 b))) = 32

/-! ### Pseudo-operations -/

/-- R155, with 30_encoding.md R80 and R81: each two-step pseudo-operation reads two results, the encoder's and then
the combiner's copy of it, and binds its name to the closed form, viewed as its suffix says. That the inner result
has a name of its own is the model's choice, assumption log 11. -/
def Obligations.TwoStepCompositesClosedForm : Prop :=
  ∀ (st : State) (dest : String) (s : Bool) (v : Word) (line : Nat), Fresh dest st →
    EndsBound 2 (composite "enc_4_16" dest s v line st) dest
      [⟨16, s, (rep 8 2 (output st.cfg .enc_4_8 (v.setWidth 8))).setWidth 64⟩,
       ⟨8, false, (output st.cfg .enc_4_8 (v.setWidth 8)).setWidth 64⟩] ∧
    EndsBound 2 (composite "enc_4_32" dest s v line st) dest
      [⟨32, s, (rep 8 4 (output st.cfg .enc_4_8 (v.setWidth 8))).setWidth 64⟩,
       ⟨8, false, (output st.cfg .enc_4_8 (v.setWidth 8)).setWidth 64⟩] ∧
    EndsBound 2 (composite "enc_11_32" dest s v line st) dest
      [⟨32, s, (rep 16 2 (output st.cfg .enc_11_16 (v.setWidth 16))).setWidth 64⟩,
       ⟨16, false, (output st.cfg .enc_11_16 (v.setWidth 16)).setWidth 64⟩] ∧
    EndsBound 2 (composite "enc_11_64" dest s v line st) dest
      [⟨64, s, (rep 16 4 (output st.cfg .enc_11_16 (v.setWidth 16))).setWidth 64⟩,
       ⟨16, false, (output st.cfg .enc_11_16 (v.setWidth 16)).setWidth 64⟩] ∧
    EndsBound 2 (composite "enc_26_64" dest s v line st) dest
      [⟨64, s, (rep 32 2 (output st.cfg .enc_26_32 (v.setWidth 32))).setWidth 64⟩,
       ⟨32, false, (output st.cfg .enc_26_32 (v.setWidth 32)).setWidth 64⟩]

/-- R156: `enc_4_64` gives eight copies of one ENC_4_8 codeword, and the other way to make eight copies gives the
same value. That the inner results have names of their own is the model's choice, assumption log 11. -/
def Obligations.EightCopiesComposite : Prop :=
  (∀ c : BitVec 8, rep 32 2 (rep 8 4 c) = rep 16 4 (rep 8 2 c) ∧
    ∀ j < 8, ((rep 32 2 (rep 8 4 c)) >>> (8 * j)).setWidth 8 = c) ∧
  (∀ (st : State) (dest : String) (s : Bool) (v : Word) (line : Nat), Fresh dest st →
    EndsBound 3 (composite "enc_4_64" dest s v line st) dest
      [⟨64, s, (rep 32 2 (rep 8 4 (output st.cfg .enc_4_8 (v.setWidth 8)))).setWidth 64⟩,
       ⟨32, false, (rep 8 4 (output st.cfg .enc_4_8 (v.setWidth 8))).setWidth 64⟩,
       ⟨8, false, (output st.cfg .enc_4_8 (v.setWidth 8)).setWidth 64⟩]) ∧
  ∀ cfg : Config, rep 32 2 (rep 8 4 (output cfg .enc_4_8 0x1#8)) = 0x7171717171717171#64

/-! ### The signed view -/

/-- 30_encoding.md R66 and 40_parity_encoders.md R130: with either value of `s` an operation gives the same output
bits; the host reads them as two's complement of the output width when `s` = 1, and as unsigned when `s` = 0. -/
def Obligations.SignedViewChangesNoBit : Prop :=
  ∀ (c : Component) (v : Word) (st : State), ∃ out : BitVec c.outWidth,
    exec (c.instr false v) st = .next (after c false v out st) ∧
    exec (c.instr true v) st = .next (after c true v out st) ∧
    signedOf c out = (if out.getLsbD (c.outWidth - 1) then (out.toNat : Int) - 2 ^ c.outWidth else out.toNat) ∧
    (⟨c.outWidth, false, out.setWidth 64⟩ : Reading).value = out.toNat

/-- R131: the value is negative exactly when the top bit is 1, the bits above the output are 0 in both views, and
every value lies in the two's-complement range; with the rule's three examples. -/
def Obligations.SignedViewCornerCases : Prop :=
  (∀ (c : Component) (out : BitVec c.outWidth),
    (signedOf c out < 0 ↔ out.getLsbD (c.outWidth - 1) = true) ∧
    -(2 ^ (c.outWidth - 1) : Int) ≤ signedOf c out ∧ signedOf c out ≤ 2 ^ (c.outWidth - 1) - 1) ∧
  (∀ (i : Instr) (st t : State), exec i st = .next t →
    ∃ r, t.results = r :: st.results ∧ r.bits.toNat < 2 ^ i.component.outWidth) ∧
  (∀ (cfg : Config),
    signedOf .enc_4_8 (output cfg .enc_4_8 0x1#8) = 113 ∧ signedOf .enc_4_8 (output cfg .enc_4_8 0x2#8) = -30 ∧
    signedOf .enc_4_8 (output cfg .enc_4_8 0xF#8) = -1)

/-! ### Every operation -/

/-- R105, R142 and 60_exceptions.md R170: every operation, on every operand, in every state and configuration,
answers a next state that differs only in its unit's input port and in one new result. -/
def Obligations.EveryOperationCompletes : Prop :=
  ∀ (i : Instr) (st : State), ∃ out : BitVec i.component.outWidth,
    exec i st = .next (after i.component i.view i.operand out st)

/-- 30_encoding.md R63: the operand bits above the input port are not connected, so two requests of one unit and view
whose operands agree on the port's bits have the same outcome, and the port then holds exactly those bits. -/
def Obligations.HighOperandBitsAreNotConnected : Prop :=
  ∀ (c : Component) (s : Bool) (v w : Word) (st : State), v.setWidth c.inWidth = w.setWidth c.inWidth →
    exec (c.instr s v) st = exec (c.instr s w) st ∧
    ∃ t, exec (c.instr s v) st = .next t ∧ t.ports.get c = .stable (v.setWidth c.inWidth)

/-- 10_state.md R21, R23, R28: what an operation leaves unchanged. Every input port but its unit's (so every other
output), the configuration, the names and the script are as before, and one result of the unit's width and view is
added to the host's. -/
def Obligations.OperationFrame : Prop :=
  ∀ (i : Instr) (st t : State), exec i st = .next t →
    (∀ c, c ≠ i.component → t.ports.get c = st.ports.get c ∧ t.outPort c = st.outPort c) ∧
    t.cfg = st.cfg ∧ t.names = st.names ∧ t.script = st.script ∧
    ∃ r, t.results = r :: st.results ∧ r.width = i.component.outWidth ∧ r.view = i.view

/-- 10_state.md R24, R28 and 20_memory.md R48: an operation's result depends on the configuration and its operand
alone, and two operations on different units leave the same ports in either order, each with the result it has
alone. -/
def Obligations.OperationsAreIndependent : Prop :=
  (∀ (i : Instr) (st st' : State), st.cfg = st'.cfg → ∃ t t' r,
    exec i st = .next t ∧ exec i st' = .next t' ∧
      t.results = r :: st.results ∧ t'.results = r :: st'.results) ∧
  ∀ (i j : Instr) (st : State), i.component ≠ j.component → ∃ ti tij tj tji ri rj,
    exec i st = .next ti ∧ exec j ti = .next tij ∧ exec j st = .next tj ∧ exec i tj = .next tji ∧
      tij.ports = tji.ports ∧ tij.results = rj :: ri :: st.results ∧ tji.results = ri :: rj :: st.results

/-! ### Ports: drive, read, change -/

/-- 10_state.md R27: reading the output of an instance whose input was never driven faults. -/
def Obligations.UndrivenReadFaults : Prop :=
  ∀ (st : State) (c : Component) (s : Bool) (rest : List HostAction),
    st.ports.get c = .undriven → step (st.withScript (.read c s :: rest)) = .fault (.undrivenRead c)

/-- 70_reset_and_hazards.md R206, with R27: when the host lets go of an input that it has driven and reads the output
before driving it again, the read faults as a read while the input changes; letting go of an input that was never
driven changes nothing, and the read faults as a read before drive. That letting go is an action of its own is the
model's reading, assumption log 14. -/
def Obligations.UnstableReadFaults : Prop :=
  ∀ (st : State) (c : Component) (s : Bool) (rest : List HostAction), ∃ t,
    step (st.withScript (.change c :: .read c s :: rest)) = .next t ∧
    (st.ports.get c ≠ .undriven → step t = .fault (.unstableRead c)) ∧
    (st.ports.get c = .undriven → step t = .fault (.undrivenRead c))

/-- R201: after power-up no output has a value; once an input is driven and settles, the output is the instance's
function of the driven bits. -/
def Obligations.OutputsFollowDrivenInputs : Prop :=
  (∀ (cfg : Config) (c : Component), (State.powerUp cfg).outPort c = none) ∧
  ∀ (st : State) (c : Component) (v : Word) (rest : List HostAction), ∃ t,
    step (st.withScript (.drive c v :: rest)) = .next t ∧
      t.outPort c = some (output st.cfg c (v.setWidth c.inWidth)) ∧
      ∀ d, d ≠ c → t.outPort d = st.outPort d

/-- 20_memory.md R45: a read of a settled output gives its value and changes nothing of the block; reading again, or
evaluating the same operation again, gives the same result. -/
def Obligations.ReadingHasNoSideEffect : Prop :=
  (∀ (st : State) (c : Component) (v : BitVec c.inWidth) (s : Bool), st.ports.get c = .stable v →
    ∃ t u r, readPort c s st = .next t ∧ readPort c s t = .next u ∧
      r = (⟨c.outWidth, s, (output st.cfg c v).setWidth 64⟩ : Reading) ∧
      t = { st with results := r :: st.results } ∧ u = { st with results := r :: r :: st.results }) ∧
  ∀ (i : Instr) (st : State), ∃ t u r, exec i st = .next t ∧ exec i t = .next u ∧
    t.results = r :: st.results ∧ u.results = r :: r :: st.results ∧ u.ports = t.ports

/-- 30_encoding.md R62 and R71: a request is a drive of its operand and a read of the output, in one step
(the model's reading, assumption log 7). -/
def Obligations.RequestIsDriveThenRead : Prop :=
  ∀ (c : Component) (s : Bool) (v : Word) (rest : List HostAction) (st : State), ∃ t,
    step (st.withScript (.drive c v :: .read c s :: rest)) = .next t ∧
      step t = step (st.withScript (.request (encode (c.instr s v)) :: rest))

/-! ### Configuration, power-up and the whole machine -/

/-- 40_parity_encoders.md R120 and R125: the configuration step accepts a pair of matrices exactly when all their
checks hold, and then the machine is powered up with exactly them; otherwise it refuses before any operation.
Which checks the refusal lists is the model's choice, assumption log 18. -/
def Obligations.ConfigurationIsCheckedExactly : Prop :=
  ∀ (h26 h57 : ParityMatrix) (dirty : DirtyHighBits),
    (AcceptableH26 h26 ∧ AcceptableH57 h57 → ∃ cfg : Config,
      cfg.h26.rows = h26 ∧ cfg.h57.rows = h57 ∧ cfg.dirtyHighBits = dirty ∧
        configure h26 h57 dirty = .next (State.powerUp cfg)) ∧
    (¬ (AcceptableH26 h26 ∧ AcceptableH57 h57) → ∃ which failed,
      failed ≠ [] ∧ configure h26 h57 dirty = .refused (.badMatrix which failed))

/-- R29, R200 and 00_scope.md R11: the state after power-up holds the device's matrices (free values, assumption log
2) and the default `ignore`, and no input is driven; the configuration step gives it. That the host's results, names
and script are empty is the model's choice, assumption log 5. -/
def Obligations.PowerUpState : Prop :=
  State.reset.cfg.dirtyHighBits = .ignore ∧ (∀ c, State.reset.ports.get c = .undriven) ∧
  configure Config.deviceH26.rows Config.deviceH57.rows .ignore = .next State.reset ∧
  State.reset.results = [] ∧ State.reset.names = [] ∧ State.reset.script = []

/-- 10_state.md R21 and 00_scope.md R8: no step changes the configuration. -/
def Obligations.ConfigurationNeverChanges : Prop :=
  ∀ s t : State, step s = .next t → t.cfg = s.cfg

/-- The invariant that every step keeps: every value the host has is zero above its own width (R70), and each name is
bound once (R75). -/
def Obligations.StepKeepsTheInvariant : Prop :=
  ∀ s t : State, s.Inv → step s = .next t → t.Inv

/-- The invariant holds after power-up, for every configuration. -/
def Obligations.PowerUpMeetsTheInvariant : Prop :=
  ∀ cfg : Config, (State.powerUp cfg).Inv

/-- 60_exceptions.md R177: the only ways a step can stop. A fault is a read of an undriven or a changing input; a
refusal is a reserved identifier or the assembler's; and a bad matrix is refused by configuration alone. -/
def Obligations.StopsAreExactlyTheListed : Prop :=
  (∀ (s : State) (f : Fault), step s = .fault f → ∃ c view rest, s.script = .read c view :: rest ∧
    (s.ports.get c = .undriven ∧ f = .undrivenRead c ∨ s.ports.get c = .changing ∧ f = .unstableRead c)) ∧
  (∀ (s : State) (r : Refusal), step s = .refused r →
    (∃ o, r = .reservedOpsel o ∧ (o.setWidth 4) ∈ [0x4#4, 0x5#4, 0x6#4, 0x7#4, 0xB#4, 0xE#4, 0xF#4]) ∨
      ∃ line why, r = .asm line why) ∧
  ∀ (h26 h57 : ParityMatrix) (dirty : DirtyHighBits) (r : Refusal), configure h26 h57 dirty = .refused r →
    ∃ which failed, r = .badMatrix which failed

/-- R105 and R170, over whole runs: a host that only drives ports and asks for operations that exist never meets a
fault or a refusal, however long the run is. -/
def Obligations.LegalRequestsRunSafely : Prop :=
  ∀ s : State,
    (∀ a ∈ s.script, (∃ r, a = .request r ∧ r.wellFormed = true) ∨ ∃ c v, a = .drive c v) → s.Safe

/-- 70_reset_and_hazards.md R211: with nothing left to do, the run has ended; that a further step changes nothing is
the model's choice, assumption log 6. -/
def Obligations.EndedRunStays : Prop :=
  ∀ s : State, s.script = [] → step s = .next s

/-! ### The assembler -/

/-- 30_encoding.md R76 and R75, line by line. An operation line is refused for an unknown mnemonic, a negative literal,
a literal that does not fit W_in, an unbound operand name, an operand name whose value is wider than W_in, and a name
bound a second time; where none of these holds it is accepted, with the operations of its mnemonic and its name bound.
An input line binds its name to the start value, or is refused for a name bound already or one without a start value.
A numeral with a minus sign is read as a negative literal, and `-0` as no operand. Which reason is reported for a line
that fails several checks, the reason for a missing start value, and `-0` are the model's choice, assumption log 13;
the width of a named value is the model's reading, assumption log 10. -/
def Obligations.AssemblerRefusesBadLines : Prop :=
  ∀ (start : List (String × Word)) (bound : Bound),
    (∀ (dest m : String) (s : Bool),
      (∀ o, chainOf m = none → assembleLine start bound (.op dest m s o) = .error .unknownMnemonic) ∧
      ∀ chain, chainOf m = some chain →
        (∀ v : Int, v < 0 →
          assembleLine start bound (.op dest m s (.literal v)) = .error .negativeLiteral) ∧
        (∀ v : Nat, 2 ^ chainInWidth chain ≤ v →
          assembleLine start bound (.op dest m s (.literal v)) = .error .literalTooWide) ∧
        (∀ n, bound.lookup n = none →
          assembleLine start bound (.op dest m s (.name n)) = .error .nameNotBound) ∧
        (∀ n w, bound.lookup n = some w → chainInWidth chain < w →
          assembleLine start bound (.op dest m s (.name n)) = .error .nameTooWide) ∧
        (∀ n w w', bound.lookup n = some w → w ≤ chainInWidth chain → bound.lookup dest = some w' →
          assembleLine start bound (.op dest m s (.name n)) = .error .nameBoundTwice) ∧
        (∀ (v : Nat) (w' : Nat), v < 2 ^ chainInWidth chain → bound.lookup dest = some w' →
          assembleLine start bound (.op dest m s (.literal v)) = .error .nameBoundTwice) ∧
        (∀ v : Nat, v < 2 ^ chainInWidth chain → bound.lookup dest = none →
          assembleLine start bound (.op dest m s (.literal v)) =
            .ok { ops := expand dest s (.const (BitVec.ofNat 64 v)) chain,
                  bound := [(dest, chainOutWidth chain)], inputs := [] }) ∧
        (∀ n w, bound.lookup n = some w → w ≤ chainInWidth chain → bound.lookup dest = none →
          assembleLine start bound (.op dest m s (.name n)) =
            .ok { ops := expand dest s (.name (.user n)) chain,
                  bound := [(dest, chainOutWidth chain)], inputs := [] })) ∧
    (∀ n : String,
      (∀ w, bound.lookup n = some w → assembleLine start bound (.input n) = .error .nameBoundTwice) ∧
      (bound.lookup n = none → start.lookup n = none →
        assembleLine start bound (.input n) = .error .nameNotBound) ∧
      (∀ v, bound.lookup n = none → start.lookup n = some v →
        assembleLine start bound (.input n) =
          .ok { ops := [], bound := [(n, bitLength v)], inputs := [(n, v)] })) ∧
    ∀ (numeral : List Char) (v : Nat), parseLiteral numeral = some v →
      parseOperand ('-' :: numeral) = if v = 0 then none else some (.literal (-(v : Int)))

/-- R76 and 60_exceptions.md R177: a program the assembler refuses stops the run with the number of a line and the
reason, and none of its operations runs. That line is the first bad one: the lines before it make an accepted program,
and with it they are refused in the same way. That a program is assembled whole first is the model's choice, assumption
log 20. -/
def Obligations.RefusedProgramStopsTheRun : Prop :=
  ∀ (st : State) (start : List (String × Word)) (lines : List String) (rest : List HostAction) (e : AsmRefusal),
    assemble start st.names lines = .error e →
      step (st.withScript (.load start lines :: rest)) = .refused (.asm e.line e.why) ∧
      1 ≤ e.line ∧ e.line ≤ lines.length ∧
      (∃ p, assemble start st.names (lines.take (e.line - 1)) = .ok p) ∧
      assemble start st.names (lines.take e.line) = .error e

/-- R75: loading a program that assembles answers a next state. Every input line's name is bound to its start value and
no other name changes, the operations that the lines stand for come next in the script, in the order of the lines, and
nothing of the block changes. That they all stand before what the host does next is the model's choice, assumption log
20; the form of a start value is assumption logs 10 and 17. -/
def Obligations.AcceptedProgramIsLoaded : Prop :=
  ∀ (st : State) (start : List (String × Word)) (lines : List String) (rest : List HostAction) (p : Program),
    assemble start st.names lines = .ok p → ∃ t,
      step (st.withScript (.load start lines :: rest)) = .next t ∧
      t.script = p.ops.map (fun o => HostAction.op o.1 o.2) ++ rest ∧
      p.ops.map (fun o => o.2.opsel) = lines.flatMap opselsOfLine ∧
      (∀ text ∈ lines, ∀ n, parseLine text = .line (.input n) →
        ∃ v, start.lookup n = some v ∧ t.names.lookup (.user n) = some ⟨bitLength v, false, v⟩) ∧
      (∀ n r, st.names.lookup n = some r → t.names.lookup n = some r) ∧
      (∀ n, t.names.lookup n ≠ st.names.lookup n →
        ∃ text ∈ lines, ∃ m, parseLine text = .line (.input m) ∧ n = .user m) ∧
      t.cfg = st.cfg ∧ t.ports = st.ports ∧ t.results = st.results

/-- R75: a line of one operation, run as a program, binds its name to that operation's result and ends with what the
host does next. Its operand is a literal, a name the host has already, or the name of an input line before it. The
width of a named value is the model's reading, assumption log 10. -/
def Obligations.LinesBindTheirResults : Prop :=
  ∀ (st : State) (start : List (String × Word)) (text dest m : String) (s : Bool) (c : Component)
    (rest : List HostAction), chainOf m = some [c] → st.names.lookup (.user dest) = none →
    (∀ v : Nat, parseLine text = .line (.op dest m s (.literal v)) → v < 2 ^ c.inWidth → ∃ t,
      run 2 (st.withScript (.load start [text] :: rest)) = .next t ∧ t.script = rest ∧
      t.results = resultOf st.cfg c s (BitVec.ofNat c.inWidth v) :: st.results ∧
      t.names = (.user dest, resultOf st.cfg c s (BitVec.ofNat c.inWidth v)) :: st.names) ∧
    (∀ n r, parseLine text = .line (.op dest m s (.name n)) → st.names.lookup (.user n) = some r →
      r.width ≤ c.inWidth → ∃ t,
      run 2 (st.withScript (.load start [text] :: rest)) = .next t ∧ t.script = rest ∧
      t.results = resultOf st.cfg c s (r.bits.setWidth c.inWidth) :: st.results ∧
      t.names = (.user dest, resultOf st.cfg c s (r.bits.setWidth c.inWidth)) :: st.names) ∧
    ∀ n v first, parseLine first = .line (.input n) → parseLine text = .line (.op dest m s (.name n)) → n ≠ dest →
      st.names.lookup (.user n) = none → start.lookup n = some v → v.toNat < 2 ^ c.inWidth → ∃ t,
      run 2 (st.withScript (.load start [first, text] :: rest)) = .next t ∧ t.script = rest ∧
      t.results = resultOf st.cfg c s (v.setWidth c.inWidth) :: st.results ∧
      t.names = (.user dest, resultOf st.cfg c s (v.setWidth c.inWidth)) ::
        (.user n, ⟨bitLength v, false, v⟩) :: st.names

/-! ### The end of a run -/

/-- 70_reset_and_hazards.md R211: every run ends, after some number `k` of steps before which it neither stopped nor
had nothing left to do, and its observation is taken there: the first fault, the first refusal, or, with nothing left
to do, the names with their values. That the observation also has the list of all results is the model's choice,
assumption log 22. -/
def Obligations.EveryRunEndsInItsObservation : Prop :=
  ∀ s : State, ∃ k ≤ scriptBound s.script,
    (∀ j < k, ∃ t, run j s = .next t ∧ t.script ≠ []) ∧
    ((∃ t, run k s = .next t ∧ t.script = [] ∧ observeRun s = some (.ended t.names t.results)) ∨
      (∃ f, run k s = .fault f ∧ observeRun s = some (.faulted f)) ∨
      ∃ r, run k s = .refused r ∧ observeRun s = some (.refused r))
end

