-- ==== Sys2Proof/Laws/State.lean ====
section
/-! SUPPORT. One lemma per field and update of State, and the laws of reading and writing an input port. -/

namespace Sys2Proof.Machine

@[simp] theorem Ports.get_set_same (p : Ports) (c : Component) (v : InPort c.inWidth) : (p.set c v).get c = v := by
  cases c <;> rfl

@[simp] theorem Ports.get_set_other (p : Ports) {c d : Component} (v : InPort c.inWidth) (h : d ≠ c) :
    (p.set c v).get d = p.get d := by
  cases c <;> cases d <;> first | exact absurd rfl h | rfl

@[simp] theorem Ports.set_set_same (p : Ports) (c : Component) (v w : InPort c.inWidth) :
    (p.set c v).set c w = p.set c w := by
  cases c <;> rfl

theorem Ports.set_comm (p : Ports) {c d : Component} (v : InPort c.inWidth) (w : InPort d.inWidth) (h : c ≠ d) :
    (p.set c v).set d w = (p.set d w).set c v := by
  cases c <;> cases d <;> first | exact absurd rfl h | rfl

theorem Ports.get_undriven (c : Component) : Ports.undriven.get c = .undriven := by
  cases c <;> rfl

section Updates
variable (st : State) (c : Component) (v : InPort c.inWidth) (r : Reading) (n : Name) (script : List HostAction)

@[simp] theorem State.setPort_cfg : (st.setPort c v).cfg = st.cfg := rfl
@[simp] theorem State.setPort_ports : (st.setPort c v).ports = st.ports.set c v := rfl
@[simp] theorem State.setPort_results : (st.setPort c v).results = st.results := rfl
@[simp] theorem State.setPort_names : (st.setPort c v).names = st.names := rfl
@[simp] theorem State.setPort_script : (st.setPort c v).script = st.script := rfl

@[simp] theorem State.record_cfg : (st.record r).cfg = st.cfg := rfl
@[simp] theorem State.record_ports : (st.record r).ports = st.ports := rfl
@[simp] theorem State.record_results : (st.record r).results = r :: st.results := rfl
@[simp] theorem State.record_names : (st.record r).names = st.names := rfl
@[simp] theorem State.record_script : (st.record r).script = st.script := rfl

@[simp] theorem State.bindName_cfg : (st.bindName n r).cfg = st.cfg := rfl
@[simp] theorem State.bindName_ports : (st.bindName n r).ports = st.ports := rfl
@[simp] theorem State.bindName_results : (st.bindName n r).results = st.results := rfl
@[simp] theorem State.bindName_names : (st.bindName n r).names = (n, r) :: st.names := rfl
@[simp] theorem State.bindName_script : (st.bindName n r).script = st.script := rfl

@[simp] theorem State.withScript_cfg : (st.withScript script).cfg = st.cfg := rfl
@[simp] theorem State.withScript_ports : (st.withScript script).ports = st.ports := rfl
@[simp] theorem State.withScript_results : (st.withScript script).results = st.results := rfl
@[simp] theorem State.withScript_names : (st.withScript script).names = st.names := rfl
@[simp] theorem State.withScript_script : (st.withScript script).script = script := rfl
@[simp] theorem State.withScript_withScript (other : List HostAction) :
    (st.withScript script).withScript other = st.withScript other := rfl
@[simp] theorem State.withScript_self : st.withScript st.script = st := rfl

end Updates

end Sys2Proof.Machine
end

