-- ==== Sys2Proof/Laws/Ops.lean ====
section
/-! SUPPORT. What the shared operations of Machine/Ops.lean can do, once each. -/

namespace Sys2Proof.Machine

/-! ### Bits of the encoder and combiner functions -/

theorem xorOver_eq_parity {k : Nat} (d : BitVec k) (S : List Nat) :
    xorOver d S = decide (S.countP (fun j => d.getLsbD j) % 2 = 1) := by
  induction S with
  | nil => rfl
  | cons j js ih =>
    rw [xorOver, ih, List.countP_cons]
    cases d.getLsbD j
    · simp
    · simp only [Bool.true_xor, ite_true, ← decide_not, decide_eq_decide]
      omega

theorem xorOver_zero {k : Nat} (S : List Nat) : xorOver (0#k) S = false := by
  induction S with
  | nil => rfl
  | cons j js ih => simp [xorOver, ih]

theorem xorOver_xor {k : Nat} (a b : BitVec k) (S : List Nat) :
    xorOver (a ^^^ b) S = Bool.xor (xorOver a S) (xorOver b S) := by
  induction S with
  | nil => rfl
  | cons j js ih =>
    rw [xorOver, xorOver, xorOver, ih, BitVec.getLsbD_xor]
    cases a.getLsbD j <;> cases b.getLsbD j <;> cases xorOver a js <;> cases xorOver b js <;> rfl

theorem getLsbD_parityBits {k : Nat} (n : Nat) (d : BitVec k) (H : ParityMatrix) (p j : Nat) :
    (parityBits n d p H).getLsbD j =
      (decide (j < n) && decide (p ≤ j) && xorOver d (H.getD (j - p) [])) := by
  induction H generalizing p with
  | nil => simp [parityBits, xorOver]
  | cons row rows ih =>
    rw [parityBits, BitVec.getLsbD_or, ih, BitVec.getLsbD_shiftLeft]
    by_cases hn : j < n
    · rcases Nat.lt_trichotomy j p with h | h | h
      · simp [h, Nat.not_le.2 h, show ¬ p + 1 ≤ j by omega]
      · subst h
        simp [hn]
        omega
      · obtain ⟨m, rfl⟩ : ∃ m, j = p + 1 + m := ⟨j - p - 1, by omega⟩
        simp [hn, show p + 1 + m - p = m + 1 by omega, show ¬ p + 1 + m < p by omega,
          show p ≤ p + 1 + m by omega]
    · simp [hn]

theorem getLsbD_copies (w : Nat) {n : Nat} (c : BitVec n) (r i : Nat) :
    (copies w c r).getLsbD i = (decide (i < w) && decide (i < r * n) && c.getLsbD (i % n)) := by
  induction r with
  | zero => simp [copies]
  | succ r ih =>
    rw [copies, BitVec.getLsbD_or, ih, BitVec.getLsbD_shiftLeft, BitVec.getLsbD_setWidth, Nat.succ_mul]
    by_cases hw : i < w
    · by_cases h : i < r * n
      · simp [hw, h, show i < r * n + n by omega]
      · by_cases h' : i < r * n + n
        · have hmod : i % n = i - r * n := by
            rw [← Nat.sub_add_cancel (Nat.not_lt.1 h), Nat.add_mul_mod_self_right, Nat.add_sub_cancel,
              Nat.mod_eq_of_lt (by omega)]
          simp [hw, h, h', hmod, show i - r * n < w by omega]
        · simp [hw, h, h', show n ≤ i - r * n by omega]
    · simp [hw]

/-- A codeword bit by bit: the data bits, then the XORs of the rows (R100). -/
theorem getLsbD_codeword {k n : Nat} {H : ParityMatrix} (hk : k + H.length = n) (d : BitVec k) (p : Nat) :
    (codeword n H d).getLsbD p = if p < k then d.getLsbD p else xorOver d (H.getD (p - k) []) := by
  rw [codeword, BitVec.getLsbD_or, getLsbD_parityBits, BitVec.getLsbD_setWidth]
  by_cases hp : p < k
  · simp [hp, show p < n by omega, show ¬ k ≤ p by omega]
  · by_cases hn : p < n
    · simp [hp, hn, show k ≤ p by omega]
    · rw [List.getD_eq_default H [] (by omega : H.length ≤ p - k)]
      simp [hp, hn, xorOver]

/-- The XOR over a row of the data word is the XOR over that row of the input (R102). -/
theorem xorOver_setWidth {k n : Nat} (v : BitVec n) (S : List Nat) (h : ∀ j ∈ S, j < k) :
    xorOver (v.setWidth k) S = decide (S.countP (fun j => v.getLsbD j) % 2 = 1) := by
  rw [xorOver_eq_parity, List.countP_congr]
  intro j hj
  simp [h j hj]

/-- An encoder gives the output of R100 under `ignore`, and under both values for an input with no dirty high bit
(R103). -/
theorem encUnder_eq_enc {dirty : DirtyHighBits} {k n : Nat} {H : ParityMatrix} {v : BitVec n}
    (h : dirty = .ignore ∨ v >>> k = 0#n) : encUnder dirty k n H v = enc k n H v := by
  unfold encUnder
  rcases h with rfl | h
  · rfl
  · cases dirty <;> simp [h]

/-- A combiner's output bit by bit (R140). -/
theorem getLsbD_rep (n r : Nat) (c : BitVec n) (i : Nat) :
    (rep n r c).getLsbD i = (decide (i < r * n) && c.getLsbD (i % n)) := by
  simp [rep, getLsbD_copies]

/-! ### Ports, reads and operations -/

/-- One operation always answers: the operand is on the port, and the host has one more result. -/
theorem evaluate_eq (c : Component) (s : Bool) (operand : Word) (st : State) :
    evaluate c s operand st =
      .next ((drivePort c operand st).record (readingOf c s (output st.cfg c (assembleOperand c operand)))) := by
  simp [evaluate, readPort, drivePort]

/-- The three things a read can do (R71, R27, R206). -/
theorem readPort_cases (c : Component) (s : Bool) (st : State) :
    (st.ports.get c = .undriven ∧ readPort c s st = .fault (.undrivenRead c)) ∨
    (st.ports.get c = .changing ∧ readPort c s st = .fault (.unstableRead c)) ∨
    (∃ v, st.ports.get c = .stable v ∧ readPort c s st = .next (st.record (readingOf c s (output st.cfg c v)))) := by
  cases h : st.ports.get c with
  | undriven => exact .inl ⟨rfl, by simp [readPort, h]⟩
  | changing => exact .inr (.inl ⟨rfl, by simp [readPort, h]⟩)
  | stable v => exact .inr (.inr ⟨v, rfl, by simp [readPort, h]⟩)

theorem outPort_drivePort (c : Component) (v : Word) (st : State) :
    (drivePort c v st).outPort c = some (output st.cfg c (assembleOperand c v)) := by
  simp [State.outPort, drivePort]

/-- The reading of an output uses only its own bits (R70). -/
theorem readingOf_bits_lt (c : Component) (s : Bool) (out : BitVec c.outWidth) :
    (readingOf c s out).width ≤ 64 ∧ (readingOf c s out).bits.toNat < 2 ^ (readingOf c s out).width := by
  have hw : c.outWidth ≤ 64 := by cases c <;> decide
  refine ⟨hw, ?_⟩
  have := out.isLt
  simp only [readingOf, assembleResult, BitVec.toNat_setWidth]
  exact lt_of_le_of_lt (Nat.mod_le _ _) this

end Sys2Proof.Machine
end

