-- ==== Sys2Proof/Laws/Step.lean ====
section
/-! SUPPORT. What an operation, a request, an action and a step can do, once each. -/

namespace Sys2Proof.Machine

/-- Every operation is its unit's evaluation. -/
theorem exec_eq_evaluate (i : Instr) (s : State) : exec i s = evaluate i.component i.view i.operand s := by
  cases i <;> rfl

theorem component_instr (c : Component) (s : Bool) (v : Word) : (c.instr s v).component = c := by
  cases c <;> rfl

theorem view_instr (c : Component) (s : Bool) (v : Word) : (c.instr s v).view = s := by
  cases c <;> rfl

theorem operand_instr (c : Component) (s : Bool) (v : Word) : (c.instr s v).operand = v := by
  cases c <;> rfl

/-- A request is one unit's evaluation, or is refused with its reserved identifier. -/
theorem runRequest_cases (r : Request) (st : State) :
    (∃ c, componentOf r.opsel = some c ∧ runRequest r st = evaluate c (opselS r.opsel) r.operand st) ∨
    (componentOf r.opsel = none ∧ runRequest r st = .refused (.reservedOpsel r.opsel)) := by
  cases h : componentOf r.opsel with
  | some c =>
    refine .inl ⟨c, rfl, ?_⟩
    simp only [runRequest, decode, h]
    rw [exec_eq_evaluate, component_instr, view_instr, operand_instr]
  | none => exact .inr ⟨rfl, by simp only [runRequest, decode, h]⟩

/-- An assembled operation that answers has evaluated one unit and bound the result to a name that was free. -/
theorem runOp_next {line : Nat} {o : AsmOp} {st t : State} (h : runOp line o st = .next t) :
    st.names.lookup o.dest = none ∧
      ∃ v c, operandValue st o.operand = some v ∧ componentOf o.opsel = some c ∧
        t = (((drivePort c v st).record
          (readingOf c (opselS o.opsel) (output st.cfg c (assembleOperand c v)))).bindName o.dest
          (readingOf c (opselS o.opsel) (output st.cfg c (assembleOperand c v)))) := by
  unfold runOp at h
  split at h
  · cases h
  · cases h
  · rename_i v hn hv
    refine ⟨hn, v, ?_⟩
    rcases runRequest_cases { opsel := o.opsel, operand := v } st with ⟨c, hc, hr⟩ | ⟨-, hr⟩
    · rw [hr, evaluate_eq] at h
      cases h
      exact ⟨c, hv, hc, rfl⟩
    · rw [hr] at h
      cases h

/-- A step with a next action performs it. -/
theorem step_cons {s : State} {a : HostAction} {rest : List HostAction} (h : s.script = a :: rest) :
    step s = perform a (s.withScript rest) := by
  simp [step, h]

theorem core_run_next {M : Host.Core} {k : Nat} {s t : M.State} (h : M.step s = .next t) :
    M.run (k + 1) s = M.run k t := by
  simp [Host.Core.run, h]

theorem core_run_fault {M : Host.Core} {k : Nat} {s : M.State} {r : M.Fault} (h : M.step s = .fault r) :
    M.run (k + 1) s = .fault r := by
  simp [Host.Core.run, h]

theorem core_run_refused {M : Host.Core} {k : Nat} {s : M.State} {r : M.Refusal} (h : M.step s = .refused r) :
    M.run (k + 1) s = .refused r := by
  simp [Host.Core.run, h]

/-- The model's own run is the interface's. -/
theorem run_eq_core_run (k : Nat) (s : State) : run k s = core.run k s := by
  induction k generalizing s with
  | zero => rfl
  | succ k ih =>
    rw [run]
    cases h : step s with
    | next t => exact (ih t).trans (core_run_next (M := core) (k := k) h).symm
    | fault r => exact (core_run_fault (M := core) (k := k) h).symm
    | refused r => exact (core_run_refused (M := core) (k := k) h).symm

/-- A step with nothing to do changes nothing. -/
theorem step_nil {s : State} (h : s.script = []) : step s = .next s := by
  simp [step, h]

/-- The two ways a step can answer. -/
theorem step_next_cases {s t : State} (h : step s = .next t) :
    (s.script = [] ∧ t = s) ∨ ∃ a rest, s.script = a :: rest ∧ perform a (s.withScript rest) = .next t := by
  cases hs : s.script with
  | nil =>
    rw [step_nil hs] at h
    cases h
    exact .inl ⟨rfl, rfl⟩
  | cons a rest =>
    rw [step_cons hs] at h
    exact .inr ⟨a, rest, rfl, h⟩

/-- An assembled operation of a free name and a readable operand is evaluated and bound. -/
theorem runOp_eq {line : Nat} {o : AsmOp} {st : State} {v : Word} {c : Component}
    (hfree : st.names.lookup o.dest = none) (hv : operandValue st o.operand = some v)
    (hc : componentOf o.opsel = some c) :
    runOp line o st = .next (((drivePort c v st).record
      (readingOf c (opselS o.opsel) (output st.cfg c (assembleOperand c v)))).bindName o.dest
      (readingOf c (opselS o.opsel) (output st.cfg c (assembleOperand c v)))) := by
  unfold runOp
  rw [hfree, hv]
  dsimp only
  rcases runRequest_cases { opsel := o.opsel, operand := v } st with ⟨d, hd, hr⟩ | ⟨hd, hr⟩
  · rw [hr, evaluate_eq]
    cases hd.symm.trans hc
    rfl
  · cases hd.symm.trans hc

theorem run_next {k : Nat} {s t : State} (h : step s = .next t) : run (k + 1) s = run k t := by
  simp [run, h]

end Sys2Proof.Machine
end

