-- ==== Sys2Proof/Laws/Asm.lean ====
section
/-! SUPPORT. What the assembler and the loading of a program can do (30_encoding.md R75, R76). -/

namespace Sys2Proof.Machine

theorem lookup_none_iff {α β : Type} [DecidableEq α] (l : List (α × β)) (a : α) :
    l.lookup a = none ↔ ∀ b ∈ l, b.1 ≠ a := by
  induction l with
  | nil => simp
  | cons b bs ih =>
    obtain ⟨x, y⟩ := b
    rw [List.lookup_cons]
    by_cases h : a = x
    · simp [h]
    · rw [show (a == x) = false by simpa using h]
      dsimp only
      rw [ih]
      simp [Ne.symm h]

/-- A name the assembler finds free is not a name of the host. -/
theorem boundOf_lookup_none {names : List (Name × Reading)} {n : String} (h : (boundOf names).lookup n = none) :
    ∀ b ∈ names, b.1 ≠ .user n := by
  induction names with
  | nil => simp
  | cons b bs ih =>
    obtain ⟨nm, r⟩ := b
    cases nm with
    | user x =>
      rw [boundOf, lookup_none_iff] at h
      intro b hb
      rcases List.mem_cons.1 hb with rfl | hb
      · simpa using h (x, r.width) List.mem_cons_self
      · exact ih ((lookup_none_iff _ _).2 fun c hc => h c (List.mem_cons_of_mem _ hc)) b hb
    | inner d k =>
      intro b hb
      rcases List.mem_cons.1 hb with rfl | hb
      · simp
      · exact ih h b hb

/-- An accepted line names one input value, under a name that was free and is bound by it, or none. -/
theorem assembleLine_inputs {start : List (String × Word)} {bound : Bound} {l : SrcLine} {a : Assembled}
    (h : assembleLine start bound l = .ok a) :
    (∃ n v, a.inputs = [(n, v)] ∧ bound.lookup n = none ∧ a.bound = [(n, bitLength v)]) ∨ a.inputs = [] := by
  cases l with
  | input n =>
    simp only [assembleLine] at h
    split at h
    · cases h
    · cases h
    · rename_i v hb _
      cases h
      exact .inl ⟨n, v, rfl, hb, rfl⟩
  | op d m s o =>
    simp only [assembleLine] at h
    split at h
    · cases h
    · split at h
      · cases h
      · split at h
        · cases h
        · cases h
          exact .inr rfl

/-- The input names of an accepted program are distinct and were free. -/
theorem assembleFrom_inputs {start : List (String × Word)} {lines : List String} {n : Nat} {bound : Bound}
    {p : Program} (h : assembleFrom start n bound lines = .ok p) :
    (p.inputs.map Prod.fst).Nodup ∧ ∀ b ∈ p.inputs, bound.lookup b.1 = none := by
  induction lines generalizing n bound p with
  | nil => cases h; simp
  | cons text rest ih =>
    rw [assembleFrom] at h
    split at h
    · exact ih h
    · cases h
    · split at h
      · cases h
      · rename_i a ha
        split at h
        · cases h
        · rename_i q hq
          cases h
          obtain ⟨hnodup, hfree⟩ := ih hq
          have happ : ∀ b ∈ q.inputs, a.bound.lookup b.1 = none ∧ bound.lookup b.1 = none := by
            intro b hb
            have := hfree b hb
            rw [List.lookup_append] at this
            revert this
            cases a.bound.lookup b.1 <;> simp
          rcases assembleLine_inputs ha with ⟨nm, v, hi, hb, hab⟩ | hi
          · simp only [hi, List.cons_append, List.nil_append, List.map_cons, List.nodup_cons]
            refine ⟨⟨fun hmem => ?_, hnodup⟩, fun b hbm => ?_⟩
            · obtain ⟨b, hbm, rfl⟩ := List.mem_map.1 hmem
              have := (happ b hbm).1
              simp [hab] at this
            · rcases List.mem_cons.1 hbm with rfl | hbm
              · exact hb
              · exact (happ b hbm).2
          · rw [hi, List.nil_append]
            exact ⟨hnodup, fun b hb => (happ b hb).2⟩

/-- A start value's reading uses only its own bits. -/
theorem inputReading_wellFormed (v : Word) : (inputReading v).wellFormed := by
  unfold Reading.wellFormed inputReading bitLength
  by_cases h : v = 0#64
  · simp [h]
  · have h0 : v.toNat ≠ 0 := fun h' => h (BitVec.eq_of_toNat_eq (by simpa using h'))
    simp only [h, if_false]
    have := (Nat.log2_lt h0).2 v.isLt
    exact ⟨by omega, Nat.lt_log2_self⟩

/-- Binding a program's input names changes the names alone. -/
theorem bindInputs_eq (l : List (String × Word)) (st : State) :
    bindInputs l st =
      { st with names := (l.map (fun b => (Name.user b.1, inputReading b.2))).reverse ++ st.names } := by
  induction l generalizing st with
  | nil => rfl
  | cons a as ih =>
    rw [bindInputs, ih]
    simp [State.bindName]

/-- What the assembler knows of the host's names: each one's width. -/
theorem boundOf_lookup (names : List (Name × Reading)) (n : String) :
    (boundOf names).lookup n = (names.lookup (.user n)).map Reading.width := by
  induction names with
  | nil => rfl
  | cons b bs ih =>
    obtain ⟨nm, r⟩ := b
    cases nm with
    | user x =>
      rw [boundOf, List.lookup_cons, List.lookup_cons, ih]
      by_cases h : n = x
      · subst h
        simp
      · rw [show (n == x) = false by simpa using h, show (Name.user n == Name.user x) = false by simpa using h]
    | inner d k =>
      rw [boundOf, List.lookup_cons, ih]
      rfl

/-- A start value fits a port exactly when it is below 2^W_in. -/
theorem bitLength_le_iff (v : Word) (w : Nat) : bitLength v ≤ w ↔ v.toNat < 2 ^ w := by
  unfold bitLength
  by_cases h : v = 0#64
  · simp [h]
  · have h0 : v.toNat ≠ 0 := fun h' => h (BitVec.eq_of_toNat_eq (by simpa using h'))
    rw [if_neg h, ← Nat.log2_lt h0]
    exact Iff.rfl

/-- A mnemonic stands for one, two or three operations (R65, R80). -/
theorem chainOf_length {m : String} {chain : List Component} (h : chainOf m = some chain) :
    1 ≤ chain.length ∧ chain.length ≤ 3 := by
  have all : ∀ b ∈ mnemonics, 1 ≤ b.2.length ∧ b.2.length ≤ 3 := by decide
  have mem : ∀ l : List (String × List Component), l.lookup m = some chain → (m, chain) ∈ l := by
    intro l
    induction l with
    | nil => intro h; cases h
    | cons b bs ih =>
      obtain ⟨x, y⟩ := b
      rw [List.lookup_cons]
      by_cases hx : m = x
      · subst hx
        simp only [beq_self_eq_true, Option.some.injEq]
        rintro rfl
        exact List.mem_cons_self
      · rw [show (m == x) = false by simpa using hx]
        exact fun h => List.mem_cons_of_mem _ (ih h)
  exact all _ (mem _ h)

theorem length_expandFrom (dest : String) (s : Bool) (k : Nat) (o : AsmOperand) (chain : List Component) :
    (expandFrom dest s k o chain).length = chain.length := by
  induction chain generalizing k o with
  | nil => rfl
  | cons c rest ih =>
    cases rest with
    | nil => rfl
    | cons d rest => simp only [expandFrom, List.length_cons, ih]

/-- What an accepted operation line is: its checks hold, and it adds the operations of its chain and its name. -/
theorem assembleLine_op_ok {start : List (String × Word)} {bound : Bound} {dest m : String} {s : Bool}
    {operand : SrcOperand} {a : Assembled} (h : assembleLine start bound (.op dest m s operand) = .ok a) :
    ∃ chain o, chainOf m = some chain ∧ assembleSource bound (chainInWidth chain) operand = .ok o ∧
      bound.lookup dest = none ∧
      a = { ops := expand dest s o chain, bound := [(dest, chainOutWidth chain)], inputs := [] } := by
  simp only [assembleLine] at h
  split at h
  · cases h
  · rename_i chain hchain
    split at h
    · cases h
    · rename_i o ho
      split at h
      · cases h
      · rename_i hdest
        cases h
        exact ⟨chain, o, hchain, ho, hdest, rfl⟩

theorem assembleLine_ops_length {start : List (String × Word)} {bound : Bound} {l : SrcLine} {a : Assembled}
    (h : assembleLine start bound l = .ok a) : a.ops.length ≤ 3 := by
  cases l with
  | input n =>
    simp only [assembleLine] at h
    split at h
    · cases h
    · cases h
    · cases h
      exact Nat.zero_le _
  | op d m s o =>
    obtain ⟨chain, o', hchain, -, -, rfl⟩ := assembleLine_op_ok h
    simp only [expand, length_expandFrom]
    exact (chainOf_length hchain).2

/-- An accepted program has at most three operations a line. -/
theorem assembleFrom_ops_length {start : List (String × Word)} {lines : List String} {n : Nat} {bound : Bound}
    {p : Program} (h : assembleFrom start n bound lines = .ok p) : p.ops.length ≤ 3 * lines.length := by
  induction lines generalizing n bound p with
  | nil => cases h; exact Nat.le_refl _
  | cons text rest ih =>
    rw [assembleFrom] at h
    rw [List.length_cons]
    split at h
    · have := ih h
      omega
    · cases h
    · split at h
      · cases h
      · rename_i a ha
        split at h
        · cases h
        · rename_i q hq
          cases h
          have hline := assembleLine_ops_length ha
          have hrest := ih hq
          simp only [List.length_append, List.length_map]
          omega

end Sys2Proof.Machine
end

