-- ==== Sys2Proof/Laws/Matrix.lean ====
section
/-! SUPPORT. What the checks of a matrix parameter say (40_parity_encoders.md R108, R120, R125): each executable
check is the plain property it stands for. -/

namespace Sys2Proof

/-! ### Rows -/

theorem noColumnIs_iff (x : Nat) (l : List Nat) : noColumnIs x l = true ↔ x ∉ l := by
  induction l with
  | nil => simp [noColumnIs]
  | cons a as ih =>
    rw [noColumnIs]
    cases h : Nat.beq x a
    · have : x ≠ a := by rintro rfl; simp at h
      simp [ih, this]
    · simp [Nat.eq_of_beq_eq_true h]

theorem rowDistinct_iff (l : List Nat) : rowDistinct l = true ↔ l.Nodup := by
  induction l with
  | nil => simp [rowDistinct]
  | cons a as ih => simp [rowDistinct, ih, noColumnIs_iff]

theorem rowsInRange_iff (k : Nat) (H : ParityMatrix) :
    rowsInRange k H = true ↔ ∀ row ∈ H, row.Nodup ∧ ∀ j ∈ row, j < k := by
  simp only [rowsInRange, List.all_eq_true, Bool.and_eq_true, rowDistinct_iff, and_comm, Nat.blt_eq]

/-! ### Columns -/

theorem columnWeight_column (H : ParityMatrix) (j : Nat) :
    columnWeight H.length (column H j) = H.countP (fun row => row.contains j) := by
  induction H with
  | nil => rfl
  | cons r rs ih =>
    rw [List.length_cons, columnWeight, column, List.countP_cons, ← ih]
    cases r.contains j
    · simp
    · simp [show (1 + 2 * column rs j) / 2 = column rs j by omega]
      omega

theorem bit_xor (a b : Bool) (x y : Nat) :
    (a.toNat + 2 * x) ^^^ (b.toNat + 2 * y) = (a ^^ b).toNat + 2 * (x ^^^ y) := by
  have key : ∀ (c : Bool) z i, (c.toNat + 2 * z).testBit i = if i = 0 then c else z.testBit (i - 1) := by
    intro c z i
    cases i with
    | zero => cases c <;> simp [Nat.testBit_zero]
    | succ i => rw [Nat.testBit_succ]; cases c <;> simp <;> congr 1 <;> omega
  apply Nat.eq_of_testBit_eq
  intro i
  rw [Nat.testBit_xor, key, key, key]
  split <;> simp

theorem columnWeight_xor (H : ParityMatrix) (i j : Nat) :
    columnWeight H.length (Nat.xor (column H i) (column H j)) =
      H.countP (fun row => row.contains i != row.contains j) := by
  change columnWeight H.length (column H i ^^^ column H j) = _
  induction H with
  | nil => rfl
  | cons r rs ih =>
    rw [List.length_cons, columnWeight, column, column, bit_xor, List.countP_cons, ← ih,
      show (r.contains i != r.contains j) = (r.contains i ^^ r.contains j) from rfl]
    cases (r.contains i ^^ r.contains j)
    · simp
    · simp [show (1 + 2 * (column rs i ^^^ column rs j)) / 2 = column rs i ^^^ column rs j by omega]
      omega

theorem column_xor_eq_iff (H : ParityMatrix) (a b c : Nat) :
    Nat.xor (column H a) (column H b) = column H c ↔
      ¬ ∃ row ∈ H, (row.contains a ^^ row.contains b ^^ row.contains c) = true := by
  change (column H a ^^^ column H b) = column H c ↔ _
  induction H with
  | nil => simp [column]
  | cons r rs ih =>
    have split_bit : ∀ (x y : Bool) (m n : Nat), x.toNat + 2 * m = y.toNat + 2 * n ↔ x = y ∧ m = n := by
      intro x y m n
      cases x <;> cases y <;> simp <;> omega
    rw [column, column, column, bit_xor, split_bit, ih]
    simp only [List.mem_cons, exists_eq_or_imp, not_or]
    apply and_congr_left'
    cases r.contains a <;> cases r.contains b <;> cases r.contains c <;> decide

/-! ### The conditions of R108 -/

theorem columnsApart_iff_pairwise (m : Nat) (l : List Nat) :
    columnsApart m l = true ↔ l.Pairwise (fun c d => 2 ≤ columnWeight m (Nat.xor c d)) := by
  induction l with
  | nil => simp [columnsApart]
  | cons a as ih => rw [columnsApart, List.pairwise_cons, Bool.and_eq_true, ih]; simp

theorem noTripleWith_iff_pairwise (c : Nat) (l : List Nat) :
    noTripleWith c l = true ↔ l.Pairwise (fun d e => Nat.xor c d ≠ e) := by
  induction l with
  | nil => simp [noTripleWith]
  | cons a as ih =>
    rw [noTripleWith, List.pairwise_cons, Bool.and_eq_true, ih, noColumnIs_iff]
    apply and_congr_left'
    exact ⟨fun h e he heq => h (heq ▸ he), fun h he => h _ he rfl⟩

/-- Condition (i), as the check has it. -/
theorem columnsHeavy_iff (k : Nat) (H : ParityMatrix) :
    columnsHeavy H.length (columns k H) = true ↔ ∀ j < k, 3 ≤ H.countP (fun row => row.contains j) := by
  simp [columnsHeavy, columns, List.all_map, columnWeight_column]

/-- Condition (ii), as the check has it. -/
theorem columnsApart_iff (k : Nat) (H : ParityMatrix) :
    columnsApart H.length (columns k H) = true ↔
      ∀ a < k, ∀ b < k, a ≠ b → 2 ≤ H.countP (fun row => row.contains a != row.contains b) := by
  rw [columnsApart_iff_pairwise, columns, List.pairwise_map, List.pairwise_iff_getElem]
  simp only [List.length_range, List.getElem_range, columnWeight_xor]
  constructor
  · intro h a ha b hb hab
    rcases Nat.lt_or_gt_of_ne hab with h' | h'
    · exact h a b ha hb h'
    · have := h b a hb ha h'
      rwa [List.countP_congr (fun r _ => by rw [bne_comm])] at this
  · intro h a b ha hb hab
    exact h a ha b hb (by omega)

/-- Condition (iii) over the columns of data bits `s` to `k0 − 1` in order. -/
theorem noColumnTriple_iff_ordered (k0 : Nat) (H : ParityMatrix) : ∀ k s : Nat, s + k = k0 →
    (noColumnTriple ((List.range' s k).map (column H)) = true ↔
      ∀ a b c, s ≤ a → a < b → b < c → c < k0 → Nat.xor (column H a) (column H b) ≠ column H c) := by
  intro k
  induction k with
  | zero => intro s hs; simp [noColumnTriple]; intros; omega
  | succ k ih =>
    intro s hs
    rw [List.range'_succ, List.map_cons, noColumnTriple, Bool.and_eq_true, ih (s + 1) (by omega),
      noTripleWith_iff_pairwise, List.pairwise_map, List.pairwise_iff_getElem]
    simp only [List.length_range', List.getElem_range']
    constructor
    · rintro ⟨h1, h2⟩ a b c ha hab hbc hc
      by_cases h : a = s
      · subst h
        have := h1 (b - (a + 1)) (c - (a + 1)) (by omega) (by omega) (by omega)
        rwa [show a + 1 + 1 * (b - (a + 1)) = b by omega, show a + 1 + 1 * (c - (a + 1)) = c by omega] at this
      · exact h2 a b c (by omega) hab hbc hc
    · intro h
      exact ⟨fun i j hi hj hij => h _ _ _ (le_refl s) (by omega) (by omega) (by omega),
        fun a b c ha => h a b c (by omega)⟩

/-- Condition (iii), as the check has it. -/
theorem noColumnTriple_iff (k : Nat) (H : ParityMatrix) :
    noColumnTriple (columns k H) = true ↔
      ∀ a < k, ∀ b < k, ∀ c < k, a ≠ b → a ≠ c → b ≠ c →
        ∃ row ∈ H, (row.contains a ^^ row.contains b ^^ row.contains c) = true := by
  rw [columns, List.range_eq_range', noColumnTriple_iff_ordered k H k 0 (by omega)]
  simp only [ne_eq, column_xor_eq_iff, not_not]
  have swap12 : ∀ a b c, (∃ row ∈ H, (row.contains a ^^ row.contains b ^^ row.contains c) = true) →
      ∃ row ∈ H, (row.contains b ^^ row.contains a ^^ row.contains c) = true := by
    rintro a b c ⟨row, hr, h⟩
    exact ⟨row, hr, by rw [Bool.xor_comm (row.contains b)]; exact h⟩
  have swap23 : ∀ a b c, (∃ row ∈ H, (row.contains a ^^ row.contains b ^^ row.contains c) = true) →
      ∃ row ∈ H, (row.contains a ^^ row.contains c ^^ row.contains b) = true := by
    rintro a b c ⟨row, hr, h⟩
    exact ⟨row, hr, by rw [Bool.xor_assoc, Bool.xor_comm (row.contains c), ← Bool.xor_assoc]; exact h⟩
  constructor
  · intro h a ha b hb c hc hab hac hbc
    rcases Nat.lt_or_gt_of_ne hab with h1 | h1 <;> rcases Nat.lt_or_gt_of_ne hac with h2 | h2 <;>
      rcases Nat.lt_or_gt_of_ne hbc with h3 | h3
    · exact h a b c (by omega) h1 h3 hc
    · exact swap23 _ _ _ (h a c b (by omega) h2 h3 hb)
    · omega
    · exact swap23 _ _ _ (swap12 _ _ _ (h c a b (by omega) h2 h1 hb))
    · exact swap12 _ _ _ (h b a c (by omega) h1 h2 hc)
    · omega
    · exact swap12 _ _ _ (swap23 _ _ _ (h b c a (by omega) h3 h2 ha))
    · exact swap12 _ _ _ (swap23 _ _ _ (swap12 _ _ _ (h c b a (by omega) h3 h1 ha)))
  · intro h a b c _ hab hbc hc
    exact h a (by omega) b (by omega) c hc (by omega) (by omega) (by omega)

/-! ### The whole checks -/

/-- P1 to P5 of R120. -/
theorem check26_iff (H : ParityMatrix) : check26 H = true ↔
    H.length = 6 ∧ (∀ row ∈ H, row.Nodup ∧ ∀ j ∈ row, j < 26) ∧ (∀ row ∈ H, row.length = 15) ∧
      (∀ j < 26, 3 ≤ H.countP (fun row => row.contains j)) ∧
      (∀ a < 26, ∀ b < 26, a ≠ b → 2 ≤ H.countP (fun row => row.contains a != row.contains b)) ∧
      ∀ a < 26, ∀ b < 26, ∀ c < 26, a ≠ b → a ≠ c → b ≠ c →
        ∃ row ∈ H, (row.contains a ^^ row.contains b ^^ row.contains c) = true := by
  simp only [check26, checks26, List.all_cons, List.all_nil, Bool.and_true, Bool.and_eq_true, MatrixCheck.passes,
    rowsInRange_iff, columnsHeavy_iff, columnsApart_iff, noColumnTriple_iff, Nat.beq_eq, List.all_eq_true]

/-- Q1 to Q4 of R125. -/
theorem check57_iff (H : ParityMatrix) : check57 H = true ↔
    H.length = 7 ∧ (∀ row ∈ H, row.Nodup ∧ ∀ j ∈ row, j < 57) ∧
      (∀ j < 57, 3 ≤ H.countP (fun row => row.contains j)) ∧
      (∀ a < 57, ∀ b < 57, a ≠ b → 2 ≤ H.countP (fun row => row.contains a != row.contains b)) ∧
      ∀ a < 57, ∀ b < 57, ∀ c < 57, a ≠ b → a ≠ c → b ≠ c →
        ∃ row ∈ H, (row.contains a ^^ row.contains b ^^ row.contains c) = true := by
  simp only [check57, checks57, List.all_cons, List.all_nil, Bool.and_true, Bool.and_eq_true, MatrixCheck.passes,
    rowsInRange_iff, columnsHeavy_iff, columnsApart_iff, noColumnTriple_iff, Nat.beq_eq]

/-- A refused matrix fails at least one check that the refusal names. -/
theorem failedChecks_ne_nil {checks : List MatrixCheck} {H : ParityMatrix}
    (h : ¬ checks.all (MatrixCheck.passes H) = true) : failedChecks checks H ≠ [] := by
  simpa [failedChecks, List.filter_eq_nil_iff] using h

end Sys2Proof
end

