-- ==== Sys2Proof/Laws/PerInstr.lean ====
section
/-! SUPPORT. The facts stated per operation: what the request of an operation holds (30_encoding.md R62, R64). -/

namespace Sys2Proof.Laws.RequestFields

/-- The request of an operation carries its operand whole, its view bit at opsel[4], and a legal identifier. -/
def Statement (i : Instr) : Prop :=
  (encode i).operand = i.operand ∧ (encode i).opsel.getLsbD 4 = i.view ∧ (encode i).wellFormed = true

theorem code_not_reserved (c : Component) (s : Bool) :
    (!reservedCodes.contains ((c.opsel s).setWidth 4)) = true := by
  cases c <;> cases s <;> decide

theorem opsel_view (c : Component) (s : Bool) : (c.opsel s).getLsbD 4 = s := by
  cases c <;> cases s <;> decide

/-- The request of any unit's operation, once for all of them. -/
theorem of_component (c : Component) (s : Bool) (v : Word) : Statement (c.instr s v) := by
  refine ⟨by cases c <;> rfl, ?_, ?_⟩
  · have h := opsel_view c s
    cases c <;> exact h
  · have h := code_not_reserved c s
    cases c <;> exact h

theorem enc_4_8 (s : Bool) (v : Word) : Statement (.enc_4_8 s v) := of_component .enc_4_8 s v
theorem enc_11_16 (s : Bool) (v : Word) : Statement (.enc_11_16 s v) := of_component .enc_11_16 s v
theorem enc_26_32 (s : Bool) (v : Word) : Statement (.enc_26_32 s v) := of_component .enc_26_32 s v
theorem enc_57_64 (s : Bool) (v : Word) : Statement (.enc_57_64 s v) := of_component .enc_57_64 s v
theorem rep_8x2 (s : Bool) (v : Word) : Statement (.rep_8x2 s v) := of_component .rep_8x2 s v
theorem rep_16x2 (s : Bool) (v : Word) : Statement (.rep_16x2 s v) := of_component .rep_16x2 s v
theorem rep_32x2 (s : Bool) (v : Word) : Statement (.rep_32x2 s v) := of_component .rep_32x2 s v
theorem rep_8x4 (s : Bool) (v : Word) : Statement (.rep_8x4 s v) := of_component .rep_8x4 s v
theorem rep_16x4 (s : Bool) (v : Word) : Statement (.rep_16x4 s v) := of_component .rep_16x4 s v

end Sys2Proof.Laws.RequestFields
end

