-- ==== Sys2Proof/Laws/Run.lean ====
section
/-! SUPPORT. What an action leaves of the script, and that a run ends (70_reset_and_hazards.md R211). -/

namespace Sys2Proof.Machine

theorem changePort_script (c : Component) (st : State) : (changePort c st).script = st.script := by
  unfold changePort
  cases st.ports.get c <;> rfl

/-- The two things letting go of an input can do (R206, R27). -/
theorem changePort_cases (c : Component) (st : State) :
    (st.ports.get c = .undriven ∧ changePort c st = st) ∨
    (st.ports.get c ≠ .undriven ∧ changePort c st = st.setPort c .changing) := by
  unfold changePort
  cases h : st.ports.get c with
  | undriven => exact .inl ⟨rfl, rfl⟩
  | changing => exact .inr ⟨by simp, rfl⟩
  | stable v => exact .inr ⟨by simp, rfl⟩

theorem bindInputs_script (l : List (String × Word)) (st : State) : (bindInputs l st).script = st.script := by
  rw [bindInputs_eq]

/-- An action takes one step of its bound and puts at most the rest of it before what the host does next. -/
theorem scriptBound_perform {a : HostAction} {st t : State} (h : perform a st = .next t) :
    scriptBound t.script + 1 ≤ HostAction.stepBound a + scriptBound st.script := by
  cases a with
  | request r =>
    rcases runRequest_cases r st with ⟨c, -, hr⟩ | ⟨-, hr⟩ <;> simp only [perform, hr, evaluate_eq] at h <;> cases h
    simp [HostAction.stepBound, drivePort, Nat.add_comm]
  | op line o =>
    obtain ⟨-, v, c, -, -, rfl⟩ := runOp_next h
    simp [HostAction.stepBound, drivePort, Nat.add_comm]
  | load start lines =>
    simp only [perform, loadProgram] at h
    split at h
    · cases h
    · rename_i p hp
      cases h
      have hops : ∀ (l : List (Nat × AsmOp)) (rest : List HostAction),
          scriptBound (l.map (fun o => HostAction.op o.1 o.2) ++ rest) = l.length + scriptBound rest := by
        intro l rest
        induction l with
        | nil => simp
        | cons o l ih =>
          simp only [List.map_cons, List.cons_append, scriptBound, HostAction.stepBound, ih, List.length_cons]
          omega
      have := assembleFrom_ops_length hp
      simp only [State.withScript_script, hops, HostAction.stepBound]
      omega
  | drive c v => cases h; simp [HostAction.stepBound, drivePort, Nat.add_comm]
  | change c => cases h; simp [HostAction.stepBound, changePort_script, Nat.add_comm]
  | read c s =>
    rcases readPort_cases c s st with ⟨-, hr⟩ | ⟨-, hr⟩ | ⟨v, -, hr⟩ <;> simp only [perform, hr] at h <;> cases h
    simp [HostAction.stepBound, Nat.add_comm]

/-- A step of a run that has not ended takes one step off its bound. -/
theorem scriptBound_step {s t : State} (hs : s.script ≠ []) (h : step s = .next t) :
    scriptBound t.script + 1 ≤ scriptBound s.script := by
  rcases step_next_cases h with ⟨hnil, -⟩ | ⟨a, rest, hcons, hp⟩
  · exact absurd hnil hs
  · rw [hcons, scriptBound]
    exact scriptBound_perform hp

/-- A run that has ended stays as it ended. -/
theorem run_ended {s : State} (h : s.script = []) (k : Nat) : run k s = .next s := by
  induction k with
  | zero => rfl
  | succ k ih => rw [run_next (step_nil h), ih]

end Sys2Proof.Machine
end

