-- ==== Sys2Proof/Tests/Slice0.lean ====
section
/-! SUPPORT. The model's own tests: expected values are the tables of 95_test_vectors.md (V1 to V9, P1 to P5) or hand
calculation from a rule, as each says. After them, for every statement with hypotheses, a witness that meets them.
The matrices here are the synthetic ones of V6, never the device's. -/

namespace Sys2Proof.Tests

open Sys2Proof.Machine Sys2Proof.Statements

/-- A configuration with V6's matrices. -/
def cfg (dirty : DirtyHighBits) : Config :=
  { h26 := { rows := Config.synthetic26, accepted := Config.synthetic26_accepted },
    h57 := { rows := Config.synthetic57, accepted := Config.synthetic57_accepted }, dirtyHighBits := dirty }

/-- Powered up under `ignore`. -/
def st : State := State.powerUp (cfg .ignore)

/-- Powered up under `any`. -/
def stAny : State := State.powerUp (cfg .any)

/-- The newest result of an outcome: the result bus, and the integer the host reads. -/
def got : Host.Outcome State Fault Refusal → Option (Word × Int)
  | .next t => t.results.head?.map (fun r => (r.bits, r.value))
  | .fault _ => none
  | .refused _ => none

/-- The newest result of one step on a request. -/
def ask (opsel : Opsel) (operand : Word) : Option (Word × Int) :=
  got (step (st.withScript [.request ⟨opsel, operand⟩]))

/-- The faults of an outcome. -/
def faultOf : Host.Outcome State Fault Refusal → Option Fault
  | .fault f => some f
  | .next _ => none
  | .refused _ => none

/-- The refusals of an outcome. -/
def refusalOf : Host.Outcome State Fault Refusal → Option Refusal
  | .refused r => some r
  | .next _ => none
  | .fault _ => none

/-! ### Well-formedness: an ill-formed term for each check -/

/-- V9's fourteen requests. -/
theorem test_reserved_requests_ill_formed :
    [0x04#5, 0x05#5, 0x06#5, 0x07#5, 0x0B#5, 0x0E#5, 0x0F#5, 0x14#5, 0x15#5, 0x16#5, 0x17#5, 0x1B#5, 0x1E#5,
      0x1F#5].all (fun o => !(Request.wellFormed ⟨o, 0x71#64⟩)) = true := by decide

/-- R76: a negative literal, and P5's literal 0x1F1 for an 8-bit port; 0xF1 fits. -/
theorem test_literal_fits :
    literalFits 8 (-1) = false ∧ literalFits 8 0x1F1 = false ∧ literalFits 8 0xF1 = true := by decide

/-- V7, H26_BAD_SIZE: index 24 removed from row 0. -/
theorem test_bad_size : failedChecks checks26
    ([0, 1, 2, 4, 5, 7, 10, 11, 13, 16, 20, 21, 22, 23] :: Config.synthetic26.drop 1) = [.p3, .p5] := by
  decide +kernel

/-- V7, H26_BAD_DUP: rows 2 and 3 replaced; data bits 0 and 1 have one column. -/
theorem test_bad_dup : failedChecks checks26
    (Config.synthetic26.take 2 ++ [[2, 3, 5, 6, 7, 9, 11, 12, 15, 18, 20, 21, 22, 24, 25],
      [0, 1, 2, 3, 8, 9, 13, 14, 15, 19, 20, 21, 23, 24, 25]] ++ Config.synthetic26.drop 4) = [.p5] := by
  decide +kernel

/-- V7, H26_BAD_ROWS: row 5 dropped. -/
theorem test_bad_rows : failedChecks checks26 (Config.synthetic26.take 5) = [.p1, .p4, .p5] := by decide +kernel

/-- V7, H26_BAD_RANGE: index 25 of row 5 replaced with 26. -/
theorem test_bad_range : failedChecks checks26
    (Config.synthetic26.take 5 ++ [[10, 11, 12, 13, 14, 15, 16, 17, 18, 19, 21, 22, 23, 24, 26]]) = [.p2, .p5] := by
  decide +kernel

/-- V7, H57_BAD_ROWS: row 6 dropped. -/
theorem test_bad_rows_57 : failedChecks checks57 (Config.synthetic57.take 6) = [.q1, .q3, .q4] := by decide +kernel

/-! ### Decoding: identifiers written out from R64, `s` `cls` `x` `sel` -/

theorem test_decode_encoders :
    decode ⟨0b00000#5, 5#64⟩ = .ok (.enc_4_8 false 5#64) ∧ decode ⟨0b10001#5, 5#64⟩ = .ok (.enc_11_16 true 5#64) ∧
    decode ⟨0b00010#5, 5#64⟩ = .ok (.enc_26_32 false 5#64) ∧
    decode ⟨0b10011#5, 5#64⟩ = .ok (.enc_57_64 true 5#64) := by decide

theorem test_decode_combiners :
    decode ⟨0b11000#5, 5#64⟩ = .ok (.rep_8x2 true 5#64) ∧ decode ⟨0b01001#5, 5#64⟩ = .ok (.rep_16x2 false 5#64) ∧
    decode ⟨0b11010#5, 5#64⟩ = .ok (.rep_32x2 true 5#64) ∧ decode ⟨0b01100#5, 5#64⟩ = .ok (.rep_8x4 false 5#64) ∧
    decode ⟨0b11101#5, 5#64⟩ = .ok (.rep_16x4 true 5#64) := by decide

/-- A table word of eight bits: the identifier at bits 4 to 0, the operand zero (assumption log 8). -/
theorem test_table_word : decodeTableWord 8 0b10010 = some (.enc_26_32 true 0) ∧ decodeTableWord 8 0b01111 = none := by
  decide

/-! ### One step per operation -/

/-- V2: the whole truth table, outputs and signed values. -/
theorem test_enc_4_8_table :
    ([0, 1, 2, 3, 4, 5, 6, 7, 8, 9, 10, 11, 12, 13, 14, 15].map (fun d => ask 0x10#5 (BitVec.ofNat 64 d))) =
      [some (0x00, 0), some (0x71, 113), some (0xE2, -30), some (0x93, -109), some (0xD4, -44), some (0xA5, -91),
       some (0x36, 54), some (0x47, 71), some (0xB8, -72), some (0xC9, -55), some (0x5A, 90), some (0x2B, 43),
       some (0x6C, 108), some (0x1D, 29), some (0x8E, -114), some (0xFF, -1)] := by decide +kernel

/-- V3: dirty high bits, and operand bits above the port. -/
theorem test_enc_4_8_dirty :
    ask 0x00#5 0xF1#64 = some (0x71, 0x71) ∧ ask 0x00#5 0x80#64 = some (0, 0) ∧
    ask 0x00#5 0xF01#64 = some (0x71, 0x71) := by decide +kernel

/-- V4: single bits, the all-ones word, and a dirty input. -/
theorem test_enc_11_16 :
    ask 0x11#5 0x0001#64 = some (0xF801, -2047) ∧ ask 0x11#5 0x0008#64 = some (0x9808, -26616) ∧
    ask 0x11#5 0x0080#64 = some (0x3880, 14464) ∧ ask 0x01#5 0x07FF#64 = some (0xFFFF, 0xFFFF) ∧
    ask 0x11#5 0x8123#64 = some (0x7923, 31011) := by decide +kernel

/-- V6, under the synthetic matrix; V5's only-ignored-bits case. -/
theorem test_enc_26_32 :
    ask 0x02#5 0x1#64 = some (0x1C000001, 0x1C000001) ∧ ask 0x02#5 0x2000000#64 = some (0xFA000000, 0xFA000000) ∧
    ask 0x12#5 0x3FFFFFF#64 = some (0xFFFFFFFF, -1) ∧ ask 0x02#5 0xFC000000#64 = some (0, 0) := by decide +kernel

/-- V5's only-ignored-bits case; data bit 0 and data bit 56 by hand from V6's rows: bit 0 is in rows 0, 1 and 2, bit
56 in all seven. -/
theorem test_enc_57_64 :
    ask 0x03#5 0xFE00000000000000#64 = some (0, 0) ∧
    ask 0x03#5 0x1#64 = some (0x0E00000000000001, 0x0E00000000000001) ∧
    ask 0x13#5 0x0100000000000000#64 = some (0xFF00000000000000, -0x100000000000000) := by decide +kernel

/-- V8. -/
theorem test_rep_8x2 : ask 0x08#5 0x12#64 = some (0x1212, 4626) ∧ ask 0x18#5 0xFF#64 = some (0xFFFF, -1) := by
  decide +kernel

/-- V8. -/
theorem test_rep_8x4 :
    ask 0x1C#5 0xA5#64 = some (0xA5A5A5A5, -1515870811) ∧ ask 0x1C#5 0x80#64 = some (0x80808080, -2139062144) := by
  decide +kernel

/-- V8. -/
theorem test_rep_16x2 :
    ask 0x19#5 0xF801#64 = some (0xF801F801, -134088703) ∧ ask 0x09#5 0x0001#64 = some (0x00010001, 65537) := by
  decide +kernel

/-- V8. -/
theorem test_rep_16x4 : ask 0x1D#5 0xD400#64 = some (0xD400D400D400D400, -3170301037646916608) := by decide +kernel

/-- V8. -/
theorem test_rep_32x2 :
    ask 0x0A#5 0x12345678#64 = some (0x1234567812345678, 1311768465173141112) ∧
    ask 0x1A#5 0x80000000#64 = some (0x8000000080000000, -9223372034707292160) := by decide +kernel

/-! ### Stops, reads and the assembler -/

/-- P5's request (0x0E, 0x71), and its read before any drive. -/
theorem test_stops :
    refusalOf (step (st.withScript [.request ⟨0x0E#5, 0x71#64⟩])) = some (.reservedOpsel 0x0E#5) ∧
    faultOf (step (st.withScript [.read .enc_4_8 false])) = some (.undrivenRead .enc_4_8) ∧
    faultOf (step ((changePort .enc_4_8 (drivePort .enc_4_8 1#64 st)).withScript [.read .enc_4_8 false])) =
      some (.unstableRead .enc_4_8) := by decide +kernel

/-- R27: letting go of an input that was never driven leaves it undriven. -/
theorem test_change_before_drive :
    faultOf (step ((changePort .enc_4_8 st).withScript [.read .enc_4_8 false])) = some (.undrivenRead .enc_4_8) := by
  decide +kernel

/-- R211: nothing is observed of a run that has not ended; of the whole run, its fault, or what the host has. -/
theorem test_observation :
    observe (run 0 (st.withScript [.read .enc_4_8 false])) = none ∧
    observeRun (st.withScript [.read .enc_4_8 false]) = some (.faulted (.undrivenRead .enc_4_8)) ∧
    observeRun (st.withScript [.request ⟨0x08#5, 0x12#64⟩]) = some (.ended [] [⟨16, false, 0x1212#64⟩]) := by
  decide +kernel

/-- A read of a driven port (R71; V2). -/
theorem test_read : got (step ((drivePort .enc_4_8 0x2#64 st).withScript [.read .enc_4_8 true])) = some (0xE2, -30) := by
  decide +kernel

/-- A bad matrix is refused at configuration, with the checks of V7. -/
theorem test_configure_refuses :
    refusalOf (configure (Config.synthetic26.take 5) Config.synthetic57 .ignore) =
      some (.badMatrix .h26 [.p1, .p4, .p5]) := by decide +kernel

/-- What the tests compare of an assembled program: each operation's line and identifier. -/
def opselsOf : Except AsmRefusal Program → Option (List (Nat × Opsel))
  | .ok p => some (p.ops.map (fun o => (o.1, o.2.opsel)))
  | .error _ => none

/-- The refusal of a program, where there is one. -/
def asmError : Except AsmRefusal Program → Option (Nat × AsmError)
  | .ok _ => none
  | .error e => some (e.line, e.why)

/-- P1's identifiers. -/
theorem test_assemble_p1 :
    opselsOf (assemble [("v", 5#64)] [] ["input v    ; start", "t0 = enc_4_8 v", "t1 = rep_8x4 t0", "t2=rep_8x4.s t0"]) =
      some [(2, 0x00#5), (3, 0x0C#5), (4, 0x1C#5)] := by decide +kernel

/-- P3's pseudo-operation, as R80 expands it; `.s` goes on the last operation. -/
theorem test_assemble_pseudo :
    opselsOf (assemble [] [] ["w = enc_4_64.s 0x1"]) = some [(1, 0x00#5), (1, 0x0C#5), (1, 0x1A#5)] := by
  decide +kernel

/-- P5's two refused lines, and R76's other refusals. -/
theorem test_assemble_refuses :
    asmError (assemble [] [] ["r2 = enc_4_8 0x1F1"]) = some (1, .literalTooWide) ∧
    asmError (assemble [] [] ["r3 = rep_8x2 r9"]) = some (1, .nameNotBound) ∧
    asmError (assemble [] [] ["a = enc_4_8 -1"]) = some (1, .negativeLiteral) ∧
    asmError (assemble [] [] ["a = enc_4_8 1", "", "a = enc_4_8 0b1"]) = some (3, .nameBoundTwice) ∧
    asmError (assemble [] [] ["a = enc_11_16 1", "b = rep_8x2 a"]) = some (2, .nameTooWide) ∧
    asmError (assemble [] [] ["a = rep_32x4 1"]) = some (1, .unknownMnemonic) := by decide +kernel

/-- R75's literal has no sign: a minus sign before zero makes a line outside the grammar (log 13). -/
theorem test_signed_zero_is_no_literal :
    asmError (assemble [] [] ["a = enc_4_8 -0"]) = some (1, .notALine) ∧
    asmError (assemble [] [] ["a = enc_4_8 -0x0"]) = some (1, .notALine) ∧
    asmError (assemble [] [] ["a = enc_4_8 -0b0"]) = some (1, .notALine) := by decide +kernel

/-- One assembled operation: the inner result of a pseudo-operation feeds the next one (P3: 0x71 to 0x71717171). -/
theorem test_inner_result_feeds_forward :
    got (step ((st.bindName (.inner "w" 0) ⟨8, false, 0x71#64⟩).withScript
      [.op 1 { dest := .inner "w" 1, opsel := 0x0C#5, operand := .name (.inner "w" 0) }])) =
        some (0x71717171, 0x71717171) := by decide +kernel

/-- The interface's step at reset with a placed word: the all-ones operand cannot be given in eight bits, so the
operand is 0 and so is the result, whatever the device's matrix is (R107). -/
theorem test_step_after_reset : (got (step (State.reset.withFetchWord 8 0x01))).map Prod.fst = some 0 := by
  decide +kernel

/-! ### Witnesses: hypotheses that can be met -/

theorem accepted26 : AcceptableH26 Config.synthetic26 := (check26_iff _).1 Config.synthetic26_accepted

theorem accepted57 : AcceptableH57 Config.synthetic57 := (check57_iff _).1 Config.synthetic57_accepted

theorem witness_DecodeAndEncodeAgree : decode ⟨0x1A#5, ~~~0#64⟩ = .ok (.rep_32x2 true (~~~0#64)) := by decide

theorem witness_ReservedIdentifiersAreRefused :
    (0x1F#5).setWidth 4 ∈ [0x4#4, 0x5#4, 0x6#4, 0x7#4, 0xB#4, 0xE#4, 0xF#4] ∧
    (0x1D#5).setWidth 4 ∉ [0x4#4, 0x5#4, 0x6#4, 0x7#4, 0xB#4, 0xE#4, 0xF#4] := by decide

/-- Both sides of the width limit: (16, 4) fits, (32, 4) does not. -/
theorem witness_CombinersFitTheMaximumWidth :
    (0x0D#5).getLsbD 3 = true ∧ (if (0x0D#5).getLsbD 2 then 4 else 2) * (8 * 2 ^ ((0x0D#5).setWidth 2).toNat) ≤ 64 ∧
    (0x0E#5).getLsbD 3 = true ∧
    ¬ (if (0x0E#5).getLsbD 2 then 4 else 2) * (8 * 2 ^ ((0x0E#5).setWidth 2).toNat) ≤ 64 := by decide

theorem witness_StepRunsTheDecodedRequest :
    (st.withScript [.request ⟨0x08#5, 0x12#64⟩]).script = .request ⟨0x08#5, 0x12#64⟩ :: [] ∧
      decode ⟨0x08#5, 0x12#64⟩ = .ok (.rep_8x2 false 0x12#64) := ⟨rfl, by decide⟩

theorem witness_StepRunsThePlacedWord : decodeTableWord 8 0x0A = some (.rep_32x2 false 0) := by decide

/-- For SharedEncoderAlgorithm, EncoderIsLinear and DistanceFourExactlyByColumns. -/
theorem witness_IsMatrix : IsMatrix 4 8 Config.h4 ∧ IsMatrix 11 16 Config.h11 := by
  unfold IsMatrix
  decide

/-- A column condition fails: one row has no distance. -/
theorem witness_IsMatrix_light : IsMatrix 1 2 [[0]] ∧ ¬ ColumnsHeavy 1 [[0]] := by
  unfold IsMatrix ColumnsHeavy
  decide

/-- For EncodersMapZeroToZero and the statements over every encoder. -/
theorem witness_encoders : Component.enc_4_8 ∈ encoders ∧ Component.enc_57_64 ∈ encoders := by decide

/-- Both ways an input is admitted: `ignore`, and no dirty high bit under `any`. -/
theorem witness_EncodersHaveDistanceFour :
    (cfg .ignore).dirtyHighBits = .ignore ∧ (0xF1#8).setWidth 4 ≠ (0xF2#8).setWidth 4 ∧
    (0x0F#8) >>> 4 = 0#8 ∧ (0x00#8) >>> 4 = 0#8 ∧ (0x0F#8).setWidth 4 ≠ (0x00#8).setWidth 4 := by decide

/-- For Enc4To8Result. -/
theorem witness_R100Applies_4 : R100Applies st.cfg.dirtyHighBits 4 8 0xF1#64 ∧
    R100Applies stAny.cfg.dirtyHighBits 4 8 0xF0F#64 := ⟨.inl rfl, .inr (by decide)⟩

/-- For Enc11To16Result. -/
theorem witness_R100Applies_11 : R100Applies st.cfg.dirtyHighBits 11 16 0xF801#64 ∧
    R100Applies stAny.cfg.dirtyHighBits 11 16 0x7FF#64 := ⟨.inl rfl, .inr (by decide)⟩

/-- For Enc26To32Result. -/
theorem witness_R100Applies_26 : R100Applies st.cfg.dirtyHighBits 26 32 0xFC000000#64 ∧
    R100Applies stAny.cfg.dirtyHighBits 26 32 0x3FFFFFF#64 := ⟨.inl rfl, .inr (by decide)⟩

/-- For Enc57To64Result. -/
theorem witness_R100Applies_57 : R100Applies st.cfg.dirtyHighBits 57 64 (~~~0#64) ∧
    R100Applies stAny.cfg.dirtyHighBits 57 64 0x1FFFFFFFFFFFFFF#64 := ⟨.inl rfl, .inr (by decide)⟩

/-- Its three clauses: two dirty inputs with one data word, a clean input, and `any`. -/
theorem witness_HighInputBitsAreIgnored :
    ((cfg .ignore).dirtyHighBits = .ignore ∧ (0xF1#8).setWidth 4 = (0x01#8).setWidth 4) ∧
    (0x0F#8) >>> 4 = 0#8 ∧ stAny.cfg.dirtyHighBits = .any := by decide

theorem witness_ReplicatedMinimumDistances :
    (cfg .ignore).dirtyHighBits = .ignore ∧ (0x00#8).setWidth 4 ≠ (0x01#8).setWidth 4 := by decide

/-- For TwoStepCompositesClosedForm and EightCopiesComposite, with another name bound already. -/
theorem witness_Fresh : Fresh "w" (st.bindName (.user "v") ⟨8, false, 5#64⟩) := by
  intro b hb
  rcases List.mem_cons.1 hb with rfl | hb
  · exact ⟨by decide, by intro k h; cases h⟩
  · cases hb

/-- For SignedViewCornerCases and OperationFrame: an operation answers. -/
theorem witness_exec_next : ∃ t, exec (.enc_26_32 true (~~~0#64)) st = .next t := ⟨_, rfl⟩

theorem witness_OperationFrame_other : Component.enc_4_8 ≠ (Instr.enc_26_32 true 0).component := by decide

theorem witness_HighOperandBitsAreNotConnected :
    (0xF01#64).setWidth (Component.enc_4_8).inWidth = (0x01#64).setWidth (Component.enc_4_8).inWidth := by decide

theorem witness_OperationsAreIndependent :
    st.cfg = (drivePort .enc_4_8 1#64 st).cfg ∧
      (Instr.enc_4_8 false 1#64).component ≠ (Instr.rep_8x2 false 1#64).component := ⟨rfl, by decide⟩

theorem witness_UndrivenReadFaults : st.ports.get .rep_32x2 = .undriven := rfl

/-- For UnstableReadFaults: a driven port and one never driven. -/
theorem witness_UnstableReadFaults :
    (drivePort .rep_32x2 0#64 st).ports.get .rep_32x2 ≠ .undriven ∧ st.ports.get .rep_32x2 = .undriven := by decide

theorem witness_OutputsFollowDrivenInputs : Component.enc_11_16 ≠ Component.enc_4_8 := by decide

theorem witness_ReadingHasNoSideEffect : (drivePort .rep_8x4 0x80#64 st).ports.get .rep_8x4 = .stable 0x80#8 := rfl

/-- Both clauses: a pair that is accepted, and one that is not. -/
theorem witness_ConfigurationIsCheckedExactly :
    (AcceptableH26 Config.synthetic26 ∧ AcceptableH57 Config.synthetic57) ∧
      ¬ (AcceptableH26 [] ∧ AcceptableH57 Config.synthetic57) :=
  ⟨⟨accepted26, accepted57⟩, fun h => absurd h.1.1 (by decide)⟩

/-- For ConfigurationNeverChanges and StepKeepsTheInvariant: a state with a result and a name, and its step. -/
theorem witness_StepKeepsTheInvariant :
    ((st.record ⟨8, false, 0xFF#64⟩).bindName (.user "x") ⟨8, false, 0xFF#64⟩).Inv ∧
    ∃ t, step (((st.record ⟨8, false, 0xFF#64⟩).bindName (.user "x") ⟨8, false, 0xFF#64⟩).withScript
      [.request ⟨0x08#5, 0xFF#64⟩]) = .next t := by
  refine ⟨⟨?_, ?_, ?_⟩, _, rfl⟩
  · intro r hr
    rw [List.mem_singleton.1 hr]
    exact ⟨by decide, by decide⟩
  · intro b hb
    rw [List.mem_singleton.1 hb]
    exact ⟨by decide, by decide⟩
  · simp [st, State.powerUp]

/-- The three stops: a fault, a refused request, a refused line; and a refused configuration. -/
theorem witness_StopsAreExactlyTheListed :
    step (st.withScript [.read .enc_57_64 false]) = .fault (.undrivenRead .enc_57_64) ∧
    step (st.withScript [.request ⟨0x14#5, 0#64⟩]) = .refused (.reservedOpsel 0x14#5) ∧
    step (st.withScript [.load [] ["x"]]) = .refused (.asm 1 .notALine) ∧
    refusalOf (configure [] Config.synthetic57 .ignore) = some (.badMatrix .h26 [.p1, .p4, .p5]) :=
  ⟨rfl, rfl, rfl, by decide +kernel⟩

theorem witness_LegalRequestsRunSafely :
    ∀ a ∈ (st.withScript [.drive .enc_4_8 (~~~0#64), .request ⟨0x1D#5, 0#64⟩]).script,
      (∃ r, a = .request r ∧ r.wellFormed = true) ∨ ∃ c v, a = .drive c v := by
  intro a ha
  rcases List.mem_cons.1 ha with rfl | ha
  · exact .inr ⟨_, _, rfl⟩
  · rw [List.mem_singleton.1 ha]
    exact .inl ⟨_, rfl, by decide⟩

theorem witness_EndedRunStays : State.reset.script = [] := rfl

/-- Every clause at the edge of its range, on the 8-bit port: 255 fits and 256 does not, a name of 8 bits fits and
one of 16 does not. -/
theorem witness_AssemblerRefusesBadLines :
    chainOf "rep_32x4" = none ∧ chainOf "enc_4_8" = some [.enc_4_8] ∧ chainInWidth [.enc_4_8] = 8 ∧
    (-1 : Int) < 0 ∧ 2 ^ 8 ≤ 256 ∧ 255 < 2 ^ 8 ∧
    [("a", 8), ("b", 16)].lookup "c" = none ∧ [("a", 8), ("b", 16)].lookup "a" = some 8 ∧
    [("a", 8), ("b", 16)].lookup "b" = some 16 ∧ 8 ≤ chainInWidth [.enc_4_8] ∧ chainInWidth [.enc_4_8] < 16 ∧
    [("v", 5#64)].lookup "a" = none ∧ [("v", 5#64)].lookup "v" = some 5#64 ∧
    [("a", 8), ("b", 16)].lookup "v" = none ∧ parseLiteral ['0'] = some 0 ∧ parseLiteral ['1'] = some 1 := by
  decide +kernel

/-- The second line is the first bad one. -/
theorem witness_RefusedProgramStopsTheRun :
    asmError (assemble [] st.names ["a = enc_4_8 1", "r3 = rep_8x2 r9", "x"]) = some (2, .nameNotBound) := by
  decide +kernel

/-- P1's first two lines; "v" is an input line's name, and a name of the host is kept. -/
theorem witness_AcceptedProgramIsLoaded :
    opselsOf (assemble [("v", 5#64)] (st.bindName (.user "x") ⟨8, false, 5#64⟩).names
      ["input v", "t0 = enc_4_8 v"]) = some [(2, 0x00#5)] ∧
    parseLine "input v" = .line (.input "v") ∧
    (st.bindName (.user "x") ⟨8, false, 5#64⟩).names.lookup (.user "x") = some ⟨8, false, 5#64⟩ := by
  decide +kernel

/-- Its three clauses, each at the largest operand that fits the 8-bit port. -/
theorem witness_LinesBindTheirResults :
    chainOf "enc_4_8" = some [.enc_4_8] ∧
    (st.bindName (.user "v") ⟨8, false, 0xFF#64⟩).names.lookup (.user "a") = none ∧
    parseLine "a = enc_4_8 0xFF" = .line (.op "a" "enc_4_8" false (.literal (255 : Nat))) ∧
    255 < 2 ^ (Component.enc_4_8).inWidth ∧
    parseLine "a = enc_4_8.s v" = .line (.op "a" "enc_4_8" true (.name "v")) ∧
    (st.bindName (.user "v") ⟨8, false, 0xFF#64⟩).names.lookup (.user "v") = some ⟨8, false, 0xFF#64⟩ ∧
    8 ≤ (Component.enc_4_8).inWidth ∧
    parseLine "input v" = .line (.input "v") ∧ "v" ≠ "a" ∧ st.names.lookup (.user "v") = none ∧
    [("v", 0xFF#64)].lookup "v" = some 0xFF#64 ∧ (0xFF#64).toNat < 2 ^ (Component.enc_4_8).inWidth := by
  decide +kernel

end Sys2Proof.Tests
end

