-- ==== Sys2Proof/Proofs/Operations.lean ====
section
/-! PROOFS. What driving a port and performing an operation change, once each, and the statements about operations:
their frame and their independence (10_state.md R21, R24, R28; 20_memory.md R48). -/

namespace Sys2Proof.Machine

/-! ### Driving a port -/

section Drive
variable (c : Component) (v : Word) (st : State)

@[simp] theorem drivePort_cfg : (drivePort c v st).cfg = st.cfg := rfl
@[simp] theorem drivePort_ports :
    (drivePort c v st).ports = st.ports.set c (.stable (assembleOperand c v)) := rfl
@[simp] theorem drivePort_results : (drivePort c v st).results = st.results := rfl
@[simp] theorem drivePort_names : (drivePort c v st).names = st.names := rfl
@[simp] theorem drivePort_script : (drivePort c v st).script = st.script := rfl

end Drive

/-- An output is a function of the configuration and of its own unit's input port (R25, R28). -/
theorem outPort_congr {st t : State} {c : Component} (hcfg : t.cfg = st.cfg)
    (hport : t.ports.get c = st.ports.get c) : t.outPort c = st.outPort c := by
  rw [State.outPort, State.outPort, hport, hcfg]

/-! ### One operation -/

/-- What the host reads from an operation: a function of the configuration and the operation alone (R24). -/
def opReading (cfg : Config) (i : Instr) : Reading :=
  readingOf i.component i.view (output cfg i.component (assembleOperand i.component i.operand))

/-- The state after an operation: its operand on its unit's port, and one more result. -/
def afterOp (i : Instr) (st : State) : State :=
  (drivePort i.component i.operand st).record (opReading st.cfg i)

/-- Every operation answers, with the state `afterOp`. -/
theorem exec_eq_afterOp (i : Instr) (st : State) : exec i st = .next (afterOp i st) := by
  rw [exec_eq_evaluate, evaluate_eq, afterOp, opReading]

section AfterOp
variable (i : Instr) (st : State)

@[simp] theorem afterOp_cfg : (afterOp i st).cfg = st.cfg := rfl
@[simp] theorem afterOp_ports :
    (afterOp i st).ports = st.ports.set i.component (.stable (assembleOperand i.component i.operand)) := rfl
@[simp] theorem afterOp_results : (afterOp i st).results = opReading st.cfg i :: st.results := rfl
@[simp] theorem afterOp_names : (afterOp i st).names = st.names := rfl
@[simp] theorem afterOp_script : (afterOp i st).script = st.script := rfl

end AfterOp

/-- An operation leaves the input port of every other unit (R28). -/
theorem afterOp_get_other {i : Instr} {c : Component} (hc : c ≠ i.component) (st : State) :
    (afterOp i st).ports.get c = st.ports.get c := by
  rw [afterOp_ports, Ports.get_set_other _ _ hc]

/-- Operations on different units leave the same ports in either order (R28). -/
theorem afterOp_ports_comm {i j : Instr} (hij : i.component ≠ j.component) (st : State) :
    (afterOp j (afterOp i st)).ports = (afterOp i (afterOp j st)).ports := by
  simp only [afterOp_ports]
  exact Ports.set_comm _ _ _ hij

/-- Settles O36: an operation drives its own unit's port and adds one result; an output follows its own port. -/
theorem operationFrame : Obligations.OperationFrame := by
  unfold Obligations.OperationFrame
  intro i st t h
  rw [exec_eq_afterOp] at h
  cases h
  refine ⟨fun c hc => ?_, afterOp_cfg i st, afterOp_names i st, afterOp_script i st, opReading st.cfg i,
    afterOp_results i st, rfl, rfl⟩
  have hport := afterOp_get_other hc st
  exact ⟨hport, outPort_congr (afterOp_cfg i st) hport⟩

/-- Settles O37: the result is `opReading`, which sees the configuration alone, and writes to different ports
commute. -/
theorem operationsAreIndependent : Obligations.OperationsAreIndependent := by
  unfold Obligations.OperationsAreIndependent
  constructor
  · intro i st st' hcfg
    refine ⟨_, _, opReading st.cfg i, exec_eq_afterOp i st, exec_eq_afterOp i st', afterOp_results i st, ?_⟩
    rw [hcfg]
    exact afterOp_results i st'
  · intro i j st hij
    exact ⟨_, _, _, _, opReading st.cfg i, opReading st.cfg j,
      exec_eq_afterOp i st, exec_eq_afterOp j _, exec_eq_afterOp j st, exec_eq_afterOp i _,
      afterOp_ports_comm hij st, by simp, by simp⟩

end Sys2Proof.Machine
end

