-- ==== Sys2Proof/Proofs/Configuration.lean ====
section
/-! PROOFS. No action of the host changes the configuration (10_state.md R21), a read before drive faults (R27), and
the state after power-up (R29). -/

namespace Sys2Proof.Machine

/-! ### Each action keeps the configuration -/

theorem runRequest_cfg {r : Request} {st t : State} (h : runRequest r st = .next t) : t.cfg = st.cfg := by
  rcases runRequest_cases r st with ⟨c, -, hr⟩ | ⟨-, hr⟩
  · rw [hr, evaluate_eq] at h
    cases h
    rfl
  · cases hr.symm.trans h

theorem runOp_cfg {line : Nat} {o : AsmOp} {st t : State} (h : runOp line o st = .next t) : t.cfg = st.cfg := by
  obtain ⟨-, v, c, -, -, rfl⟩ := runOp_next h
  rfl

/-- Loading a program changes what the host holds, not the block. -/
theorem loadProgram_cfg {start : List (String × Word)} {lines : List String} {st t : State}
    (h : loadProgram start lines st = .next t) : t.cfg = st.cfg := by
  unfold loadProgram at h
  split at h
  · cases h
  · cases h
    rw [State.withScript_cfg, bindInputs_eq]

theorem changePort_cfg (c : Component) (st : State) : (changePort c st).cfg = st.cfg := by
  rcases changePort_cases c st with ⟨-, hc⟩ | ⟨-, hc⟩
  · rw [hc]
  · rw [hc, State.setPort_cfg]

theorem readPort_cfg {c : Component} {s : Bool} {st t : State} (h : readPort c s st = .next t) :
    t.cfg = st.cfg := by
  rcases readPort_cases c s st with ⟨-, hr⟩ | ⟨-, hr⟩ | ⟨v, -, hr⟩
  · cases hr.symm.trans h
  · cases hr.symm.trans h
  · cases hr.symm.trans h
    rfl

/-- No action of the host changes the configuration (R21). -/
theorem perform_cfg {a : HostAction} {st t : State} (h : perform a st = .next t) : t.cfg = st.cfg := by
  cases a with
  | request r => exact runRequest_cfg h
  | op line o => exact runOp_cfg h
  | load start lines => exact loadProgram_cfg h
  | drive c v => cases h; exact drivePort_cfg c v st
  | change c => cases h; exact changePort_cfg c st
  | read c s => exact readPort_cfg h

/-- Settles O45: a step performs an action on the state with a shorter script, or does nothing. -/
theorem configurationNeverChanges : Obligations.ConfigurationNeverChanges := by
  unfold Obligations.ConfigurationNeverChanges
  intro s t h
  rcases step_next_cases h with ⟨-, rfl⟩ | ⟨a, rest, -, hp⟩
  · rfl
  · exact (perform_cfg hp).trans (State.withScript_cfg s rest)

/-! ### A read before drive -/

/-- The read's first case (R27): the port is undriven, so its output has no value. -/
theorem readPort_undriven {c : Component} {st : State} (h : st.ports.get c = .undriven) (s : Bool) :
    readPort c s st = .fault (.undrivenRead c) := by
  simp [readPort, h]

/-- Settles O38: the step performs the read, and the rest of the script does not touch the port. -/
theorem undrivenReadFaults : Obligations.UndrivenReadFaults := by
  unfold Obligations.UndrivenReadFaults
  intro st c s rest h
  rw [step_cons (State.withScript_script st _)]
  exact readPort_undriven (st := st.withScript rest) h s

/-! ### Power-up -/

/-- The configuration step accepts the matrices of any configuration and powers up with it: an accepted matrix
carries the proof of its checks (R120, R125). -/
theorem configure_accepted (cfg : Config) :
    configure cfg.h26.rows cfg.h57.rows cfg.dirtyHighBits = .next (State.powerUp cfg) := by
  rw [configure, dif_pos cfg.h26.accepted, dif_pos cfg.h57.accepted]

/-- Settles O44: the reset state is the power-up state of the device's configuration. -/
theorem powerUpState : Obligations.PowerUpState := by
  unfold Obligations.PowerUpState
  exact ⟨rfl, Ports.get_undriven, configure_accepted Config.device, rfl, rfl, rfl⟩

end Sys2Proof.Machine
end

