-- ==== Sys2Proof/Proofs/Reading.lean ====
section
/-! PROOFS. A read has no side effect, and an operation is idempotent (20_memory.md R45). -/

namespace Sys2Proof.Machine

/-- The read's third case (R71, R205): the input has settled, and the unit's output is one more result. -/
theorem readPort_stable {c : Component} {v : BitVec c.inWidth} {st : State} (h : st.ports.get c = .stable v)
    (s : Bool) : readPort c s st = .next (st.record (readingOf c s (output st.cfg c v))) := by
  simp [readPort, h]

/-- Evaluated again, an operation drives the value that its port has, and leaves the ports as they are (R45). -/
theorem afterOp_afterOp_ports (i : Instr) (st : State) : (afterOp i (afterOp i st)).ports = (afterOp i st).ports := by
  simp only [afterOp_ports, Ports.set_set_same]

/-- Settles O41: the state after a read has the same ports and configuration, so the read's third case holds of it
again; a second evaluation sees the same configuration, so it gives the same `opReading`. -/
theorem readingHasNoSideEffect : Obligations.ReadingHasNoSideEffect := by
  unfold Obligations.ReadingHasNoSideEffect
  constructor
  · intro st c v s hport
    have hagain : (st.record (readingOf c s (output st.cfg c v))).ports.get c = .stable v := hport
    exact ⟨_, _, _, readPort_stable hport s, readPort_stable hagain s, rfl, rfl, rfl⟩
  · intro i st
    exact ⟨_, _, opReading st.cfg i, exec_eq_afterOp i st, exec_eq_afterOp i _, afterOp_results i st,
      afterOp_results i (afterOp i st), afterOp_afterOp_ports i st⟩

end Sys2Proof.Machine
end

