-- ==== Sys2Proof/Proofs/Encoding.lean ====
section
/-! PROOFS. The identifiers of R64 and R65, the decoder and the encoder (30_encoding.md R62 to R69), and how a step
dispatches a request. -/

namespace Sys2Proof.Machine

/-! ### Identifiers -/

/-- The identifier that the encoder writes for a unit names that unit (R64, R65). -/
@[simp] theorem componentOf_opsel (c : Component) (s : Bool) : componentOf (c.opsel s) = some c := by
  cases c <;> cases s <;> rfl

/-- The view bit stands above the code (R64). -/
@[simp] theorem opselS_opsel (c : Component) (s : Bool) : opselS (c.opsel s) = s :=
  Laws.RequestFields.opsel_view c s

/-- No identifier but the encoder's names a unit: a finite fact about the 32 identifiers (R64, R67). -/
theorem opsel_of_componentOf {o : Opsel} {c : Component} (h : componentOf o = some c) : c.opsel (opselS o) = o := by
  have all : ∀ o : Opsel, ∀ c ∈ componentOf o, c.opsel (opselS o) = o := by decide
  exact all o c h

/-- The identifiers that name no unit are those with a reserved code (R67). -/
theorem componentOf_eq_none_iff (o : Opsel) :
    componentOf o = none ↔ o.setWidth 4 ∈ [0x4#4, 0x5#4, 0x6#4, 0x7#4, 0xB#4, 0xE#4, 0xF#4] := by
  revert o
  decide

/-- A combiner's width and factor, as `sel` and `x` select them, name a unit when the output fits (R64, R141). -/
theorem combinerOf_isSome_iff {sel : Nat} (hsel : sel < 4) (x : Bool) :
    (combinerOf (combinerWidth sel) (replicationFactor x)).isSome = true ↔
      replicationFactor x * combinerWidth sel ≤ 64 := by
  interval_cases sel <;> cases x <;> decide

/-- With `cls` = 1 an identifier names a combiner or nothing (R64). -/
theorem componentOf_combiner {o : Opsel} (h : opselCls o = true) :
    componentOf o = combinerOf (combinerWidth (opselSel o)) (replicationFactor (opselX o)) := by
  simp only [componentOf, h]

theorem opselSel_eq_setWidth (o : Opsel) : opselSel o = (o.setWidth 2).toNat := by
  simp [opselSel]

/-! ### Decoding -/

/-- Every operation is made of its unit, its view bit and its operand. -/
theorem instr_of_fields (i : Instr) : i.component.instr i.view i.operand = i := by
  cases i <;> rfl

theorem encode_instr (c : Component) (s : Bool) (v : Word) : encode (c.instr s v) = ⟨c.opsel s, v⟩ := by
  cases c <;> rfl

/-- The decoder gives the unit that the identifier names, with the view bit and the whole operand. -/
theorem decode_of_componentOf {r : Request} {c : Component} (h : componentOf r.opsel = some c) :
    decode r = .ok (c.instr (opselS r.opsel) r.operand) := by
  simp only [decode, h]

/-- The decoder rejects an identifier that names no unit (R67). -/
theorem decode_of_componentOf_none {r : Request} (h : componentOf r.opsel = none) :
    decode r = .error (.reservedOpsel r.opsel) := by
  simp only [decode, h]

/-- What a request that decodes looks like. -/
theorem componentOf_of_decode {r : Request} {i : Instr} (h : decode r = .ok i) :
    ∃ c, componentOf r.opsel = some c ∧ i = c.instr (opselS r.opsel) r.operand := by
  cases hc : componentOf r.opsel with
  | some c =>
    rw [decode_of_componentOf hc] at h
    cases h
    exact ⟨c, rfl, rfl⟩
  | none => cases (decode_of_componentOf_none hc).symm.trans h

/-- A request decodes exactly when its identifier names a unit. -/
theorem exists_decode_iff (r : Request) : (∃ i, decode r = .ok i) ↔ (componentOf r.opsel).isSome = true := by
  rw [Option.isSome_iff_exists]
  constructor
  · rintro ⟨i, hi⟩
    obtain ⟨c, hc, -⟩ := componentOf_of_decode hi
    exact ⟨c, hc⟩
  · rintro ⟨c, hc⟩
    exact ⟨_, decode_of_componentOf hc⟩

theorem decode_encode (i : Instr) : decode (encode i) = .ok i := by
  rw [decode_of_componentOf (r := encode i) (componentOf_opsel i.component i.view), encode, opselS_opsel,
    instr_of_fields]

theorem encode_of_decode {r : Request} {i : Instr} (h : decode r = .ok i) : encode i = r := by
  obtain ⟨c, hc, rfl⟩ := componentOf_of_decode h
  rw [encode_instr, opsel_of_componentOf hc]

/-- Settles O1: the encoder's identifiers name their units, and no others do. -/
theorem decodeAndEncodeAgree : Obligations.DecodeAndEncodeAgree := by
  unfold Obligations.DecodeAndEncodeAgree
  exact ⟨decode_encode, fun _ _ => encode_of_decode⟩

/-- A request with a reserved code, whatever its view bit and operand are, is rejected (R67). -/
theorem decode_reserved {code : BitVec 4}
    (h : code ∈ [0x4#4, 0x5#4, 0x6#4, 0x7#4, 0xB#4, 0xE#4, 0xF#4]) (s : Bool) (v : Word) :
    decode ⟨BitVec.ofBool s ++ code, v⟩ = .error (.reservedOpsel (BitVec.ofBool s ++ code)) := by
  refine decode_of_componentOf_none (r := ⟨BitVec.ofBool s ++ code, v⟩) ((componentOf_eq_none_iff _).2 ?_)
  rwa [BitVec.setWidth_append_eq_right]

/-- Settles O2: each legal row is the request that the encoder writes for its operation, and a reserved row is
rejected. -/
theorem operationMapMatchesTable : Obligations.OperationMapMatchesTable := by
  unfold Obligations.OperationMapMatchesTable
  refine ⟨fun s v => ?_, rfl⟩
  exact ⟨decode_encode (.enc_4_8 s v), decode_encode (.enc_11_16 s v), decode_encode (.enc_26_32 s v),
    decode_encode (.enc_57_64 s v), decode_encode (.rep_8x2 s v), decode_encode (.rep_16x2 s v),
    decode_encode (.rep_32x2 s v), decode_encode (.rep_8x4 s v), decode_encode (.rep_16x4 s v),
    fun _ hcode => decode_reserved hcode s v⟩

/-- Settles O4: with `cls` = 1 the identifier names the combiner of its n and r, where the output fits. -/
theorem combinersFitTheMaximumWidth : Obligations.CombinersFitTheMaximumWidth := by
  unfold Obligations.CombinersFitTheMaximumWidth
  intro r hcls
  have hsel : opselSel r.opsel < 4 := (r.opsel.extractLsb' 0 2).isLt
  rw [exists_decode_iff, componentOf_combiner hcls, combinerOf_isSome_iff hsel, opselSel_eq_setWidth]
  rfl

/-- Settles O5: ten closed evaluations of the decoder. -/
theorem sampleWordsDecode : Obligations.SampleWordsDecode := by
  unfold Obligations.SampleWordsDecode
  decide

/-! ### Dispatch -/

/-- A request that decodes runs its operation (R62). -/
theorem runRequest_of_decode {r : Request} {i : Instr} (h : decode r = .ok i) (st : State) :
    runRequest r st = exec i st := by
  simp only [runRequest, h]

/-- A step on a request runs it with the script moved past it. -/
theorem step_request (st : State) (r : Request) (rest : List HostAction) :
    step (st.withScript (.request r :: rest)) = runRequest r (st.withScript rest) :=
  step_cons (State.withScript_script st _)

/-- What the decoder reads from a table word is what it decodes. -/
theorem decode_of_decodeTableWord {nbits w : Nat} {i : Instr} (h : decodeTableWord nbits w = some i) :
    decode (Request.ofTableWord nbits w) = .ok i := by
  unfold decodeTableWord at h
  split at h
  · rename_i j hj
    cases h
    exact hj
  · cases h

/-- Settles O3: a request is one unit's evaluation, which always answers, or its identifier names no unit; the counts
are over the 32 identifiers. -/
theorem reservedIdentifiersAreRefused : Obligations.ReservedIdentifiersAreRefused := by
  unfold Obligations.ReservedIdentifiersAreRefused
  refine ⟨fun r rest st => ?_, by decide, by decide⟩
  rw [step_request, ← componentOf_eq_none_iff]
  rcases runRequest_cases r (st.withScript rest) with ⟨c, hc, hr⟩ | ⟨hc, hr⟩
  · exact ⟨fun hnone => (Option.some_ne_none c (hc.symm.trans hnone)).elim,
      fun _ => ⟨_, hr.trans (evaluate_eq ..)⟩⟩
  · exact ⟨fun _ => hr, fun hsome => (hsome hc).elim⟩

/-- Settles O6: the step performs the request, which runs what it decodes to. -/
theorem stepRunsTheDecodedRequest : Obligations.StepRunsTheDecodedRequest := by
  unfold Obligations.StepRunsTheDecodedRequest
  intro s r i rest hscript hdecode
  rw [step_cons hscript]
  exact runRequest_of_decode hdecode _

/-- Settles O7: the placed word is a request before the script, and the step takes it off again. -/
theorem stepRunsThePlacedWord : Obligations.StepRunsThePlacedWord := by
  unfold Obligations.StepRunsThePlacedWord
  intro s nbits w i h
  rw [State.withFetchWord, step_request, State.withScript_self]
  exact runRequest_of_decode (decode_of_decodeTableWord h) s

end Sys2Proof.Machine
end

