-- ==== Sys2Proof/Proofs/Requests.lean ====
section
/-! PROOFS. A request as its unit's evaluation (30_encoding.md R62, R63, R71) and how the host reads its output in
the two views (R66; 40_parity_encoders.md R130). -/

namespace Sys2Proof.Machine

open Sys2Proof.Statements

/-! ### The operation of a unit -/

theorem exec_instr (c : Component) (s : Bool) (v : Word) (st : State) :
    exec (c.instr s v) st = evaluate c s v st := by
  rw [exec_eq_evaluate, component_instr, view_instr, operand_instr]

/-- The state after an operation of a unit, field by field (R62, R63, R70). -/
theorem exec_instr_eq_after (c : Component) (s : Bool) (v : Word) (st : State) :
    exec (c.instr s v) st = .next (after c s v (output st.cfg c (assembleOperand c v)) st) := by
  rw [exec_instr, evaluate_eq]
  rfl

/-- The operand bits above the input port do not reach it (R63). -/
theorem evaluate_congr_operand {c : Component} {v w : Word} (h : assembleOperand c v = assembleOperand c w)
    (s : Bool) (st : State) : evaluate c s v st = evaluate c s w st := by
  rw [evaluate, evaluate, drivePort, drivePort, h]

/-- Settles O35: the operand reaches the unit through its port, which holds the low bits. -/
theorem highOperandBitsAreNotConnected : Obligations.HighOperandBitsAreNotConnected := by
  unfold Obligations.HighOperandBitsAreNotConnected
  intro c s v w st h
  refine ⟨?_, _, exec_instr_eq_after c s v st, Ports.get_set_same ..⟩
  rw [exec_instr, exec_instr, evaluate_congr_operand h]

theorem step_drive (st : State) (c : Component) (v : Word) (rest : List HostAction) :
    step (st.withScript (.drive c v :: rest)) = .next ((drivePort c v st).withScript rest) :=
  step_cons (State.withScript_script st _)

theorem step_read (st : State) (c : Component) (s : Bool) (rest : List HostAction) :
    step (st.withScript (.read c s :: rest)) = readPort c s (st.withScript rest) :=
  step_cons (State.withScript_script st _)

/-- Settles O42: both the read and the request read the port as the drive left it. -/
theorem requestIsDriveThenRead : Obligations.RequestIsDriveThenRead := by
  unfold Obligations.RequestIsDriveThenRead
  intro c s v rest st
  refine ⟨(drivePort c v st).withScript (.read c s :: rest), step_drive st c v _, ?_⟩
  rw [step_read, step_request, runRequest_of_decode (decode_encode _), exec_instr]
  rfl

/-! ### The two views -/

theorem outWidth_le (c : Component) : c.outWidth ≤ 64 := by
  cases c <;> decide

theorem inWidth_le (c : Component) : c.inWidth ≤ 64 := by
  cases c <;> decide

/-- The result bus holds the whole output: its low bits are the output (R70, R66). -/
theorem setWidth_setWidth_output {c : Component} (out : BitVec c.outWidth) :
    (out.setWidth 64).setWidth c.outWidth = out := by
  rw [BitVec.setWidth_setWidth_of_le _ (outWidth_le c), BitVec.setWidth_eq]

/-- With `s` = 1 the host reads an output as two's complement of the output's own width (R66). -/
theorem value_signed {c : Component} (out : BitVec c.outWidth) :
    (⟨c.outWidth, true, out.setWidth 64⟩ : Reading).value = toSigned out := by
  simp only [Reading.value, Reading.pattern, setWidth_setWidth_output, if_true]

/-- With `s` = 0 the host reads an output as unsigned (R66). -/
theorem value_unsigned {c : Component} (out : BitVec c.outWidth) :
    (⟨c.outWidth, false, out.setWidth 64⟩ : Reading).value = out.toNat := by
  simp only [Reading.value, Reading.pattern, setWidth_setWidth_output, Bool.false_eq_true, if_false]

/-- Settles O32: the output is a function of the operand, and the views differ in the reading alone. -/
theorem signedViewChangesNoBit : Obligations.SignedViewChangesNoBit := by
  unfold Obligations.SignedViewChangesNoBit
  intro c v st
  refine ⟨output st.cfg c (assembleOperand c v), exec_instr_eq_after c false v st, exec_instr_eq_after c true v st,
    ?_, value_unsigned _⟩
  rw [signedOf, value_signed, toSigned]
  push_cast
  rfl

end Sys2Proof.Machine
end

