-- ==== Sys2Proof/Proofs/Invariant.lean ====
section
/-! PROOFS. Every step keeps the invariant (30_encoding.md R70, R75): one rule for each update of the state, then one
for each action of the host. -/

namespace Sys2Proof.Machine

/-! ### The updates of the state -/

/-- The invariant speaks of the host's results and names alone. -/
theorem State.Inv.congr {s t : State} (hs : s.Inv) (hresults : t.results = s.results) (hnames : t.names = s.names) :
    t.Inv where
  results_wellFormed := hresults ▸ hs.results_wellFormed
  names_wellFormed := hnames ▸ hs.names_wellFormed
  names_once := hnames ▸ hs.names_once

theorem State.Inv.withScript {s : State} (hs : s.Inv) (script : List HostAction) : (s.withScript script).Inv :=
  hs.congr rfl rfl

theorem State.Inv.drivePort {s : State} (hs : s.Inv) (c : Component) (v : Word) : (drivePort c v s).Inv :=
  hs.congr rfl rfl

theorem State.Inv.changePort {s : State} (hs : s.Inv) (c : Component) : (changePort c s).Inv := by
  rcases changePort_cases c s with ⟨-, hc⟩ | ⟨-, hc⟩
  · rwa [hc]
  · rw [hc]
    exact hs.congr rfl rfl

theorem State.Inv.record {s : State} (hs : s.Inv) {r : Reading} (hr : r.wellFormed) : (s.record r).Inv where
  results_wellFormed := List.forall_mem_cons.2 ⟨hr, hs.results_wellFormed⟩
  names_wellFormed := hs.names_wellFormed
  names_once := hs.names_once

/-- A free name may be bound (R76). -/
theorem State.Inv.bindName {s : State} (hs : s.Inv) {n : Name} {r : Reading} (hfree : s.names.lookup n = none)
    (hr : r.wellFormed) : (s.bindName n r).Inv where
  results_wellFormed := hs.results_wellFormed
  names_wellFormed := List.forall_mem_cons.2 ⟨hr, hs.names_wellFormed⟩
  names_once := by
    refine List.nodup_cons.2 ⟨fun hmem => ?_, hs.names_once⟩
    obtain ⟨b, hb, hbn⟩ := List.mem_map.1 hmem
    exact (lookup_none_iff s.names n).1 hfree b hb hbn

/-! ### The names of a program's input lines -/

/-- Distinct free input names may be bound one after the other. -/
theorem State.Inv.bindInputs {inputs : List (String × Word)} {s : State} (hs : s.Inv)
    (hnodup : (inputs.map Prod.fst).Nodup) (hfree : ∀ b ∈ inputs, s.names.lookup (.user b.1) = none) :
    (bindInputs inputs s).Inv := by
  induction inputs generalizing s with
  | nil => exact hs
  | cons b rest ih =>
    obtain ⟨n, v⟩ := b
    obtain ⟨hhead, htail⟩ := List.forall_mem_cons.1 hfree
    obtain ⟨hnew, hnodup⟩ := List.nodup_cons.1 hnodup
    refine ih (hs.bindName hhead (inputReading_wellFormed v)) hnodup fun b hb => ?_
    have hne : Name.user b.1 ≠ .user n := fun h => hnew (List.mem_map.2 ⟨b, hb, Name.user.inj h⟩)
    rw [State.bindName_names, List.lookup_cons, beq_eq_false_iff_ne.2 hne]
    exact htail b hb

/-- The input names of an accepted program are distinct, and free in the host's names (R76). -/
theorem assemble_inputs {start : List (String × Word)} {names : List (Name × Reading)} {lines : List String}
    {p : Program} (h : assemble start names lines = .ok p) :
    (p.inputs.map Prod.fst).Nodup ∧ ∀ b ∈ p.inputs, names.lookup (.user b.1) = none := by
  obtain ⟨hnodup, hfree⟩ := assembleFrom_inputs h
  refine ⟨hnodup, fun b hb => ?_⟩
  have hb := hfree b hb
  rwa [boundOf_lookup, Option.map_eq_none_iff] at hb

/-- What loading a program does when it answers: the program assembles, its input names are bound, and its operations
come first. -/
theorem loadProgram_next {start : List (String × Word)} {lines : List String} {st t : State}
    (h : loadProgram start lines st = .next t) :
    ∃ p, assemble start st.names lines = .ok p ∧
      t = (bindInputs p.inputs st).withScript (p.ops.map (fun o => HostAction.op o.1 o.2) ++ st.script) := by
  unfold loadProgram at h
  split at h
  · cases h
  · rename_i p hp
    cases h
    exact ⟨p, hp, rfl⟩

/-! ### The actions of the host -/

theorem readingOf_wellFormed (c : Component) (s : Bool) (out : BitVec c.outWidth) :
    (readingOf c s out).wellFormed :=
  readingOf_bits_lt c s out

theorem runRequest_inv {r : Request} {s t : State} (hs : s.Inv) (h : runRequest r s = .next t) : t.Inv := by
  rcases runRequest_cases r s with ⟨c, -, hr⟩ | ⟨-, hr⟩
  · rw [hr, evaluate_eq] at h
    cases h
    exact (hs.drivePort c _).record (readingOf_wellFormed ..)
  · cases hr.symm.trans h

theorem runOp_inv {line : Nat} {o : AsmOp} {s t : State} (hs : s.Inv) (h : runOp line o s = .next t) : t.Inv := by
  obtain ⟨hfree, v, c, -, -, rfl⟩ := runOp_next h
  exact ((hs.drivePort c v).record (readingOf_wellFormed ..)).bindName hfree (readingOf_wellFormed ..)

theorem loadProgram_inv {start : List (String × Word)} {lines : List String} {s t : State} (hs : s.Inv)
    (h : loadProgram start lines s = .next t) : t.Inv := by
  obtain ⟨p, hp, rfl⟩ := loadProgram_next h
  obtain ⟨hnodup, hfree⟩ := assemble_inputs hp
  exact (hs.bindInputs hnodup hfree).withScript _

theorem readPort_inv {c : Component} {view : Bool} {s t : State} (hs : s.Inv)
    (h : readPort c view s = .next t) : t.Inv := by
  rcases readPort_cases c view s with ⟨-, hr⟩ | ⟨-, hr⟩ | ⟨v, -, hr⟩
  · cases hr.symm.trans h
  · cases hr.symm.trans h
  · cases hr.symm.trans h
    exact hs.record (readingOf_wellFormed ..)

/-- No action of the host breaks the invariant. -/
theorem perform_inv {a : HostAction} {s t : State} (hs : s.Inv) (h : perform a s = .next t) : t.Inv := by
  cases a with
  | request r => exact runRequest_inv hs h
  | op line o => exact runOp_inv hs h
  | load start lines => exact loadProgram_inv hs h
  | drive c v => cases h; exact hs.drivePort c v
  | change c => cases h; exact hs.changePort c
  | read c view => exact readPort_inv hs h

/-- Settles O46: a step performs an action on the state with a shorter script, or does nothing. -/
theorem stepKeepsTheInvariant : Obligations.StepKeepsTheInvariant := by
  unfold Obligations.StepKeepsTheInvariant
  intro s t hs h
  rcases step_next_cases h with ⟨-, rfl⟩ | ⟨a, rest, -, hp⟩
  · exact hs
  · exact perform_inv (hs.withScript rest) hp

/-- Settles O47: the host has no result and no name after power-up. -/
theorem powerUpMeetsTheInvariant : Obligations.PowerUpMeetsTheInvariant := by
  unfold Obligations.PowerUpMeetsTheInvariant
  intro cfg
  exact { results_wellFormed := List.forall_mem_nil _, names_wellFormed := List.forall_mem_nil _,
          names_once := List.nodup_nil }

end Sys2Proof.Machine
end

