-- ==== Sys2Proof/Proofs/Assembler.lean ====
section
/-! PROOFS. What the assembler does with an operand, with a line, and with a program that has a bad line
(30_encoding.md R75, R76). -/

namespace Sys2Proof.Machine

/-! ### The operand of a line -/

section Source
variable {bound : Bound} {w : Nat}

theorem assembleSource_negative {v : Int} (h : v < 0) :
    assembleSource bound w (.literal v) = .error .negativeLiteral := by
  simp only [assembleSource, h, if_true]

/-- A literal of R75 fits exactly when it is below 2^W_in (R76). -/
theorem literalFits_natCast (w v : Nat) : literalFits w (v : Int) = decide (v < 2 ^ w) := by
  simp only [literalFits, Int.natCast_nonneg, decide_true, Bool.true_and, Int.ofNat_lt]

theorem assembleSource_tooWide {v : Nat} (h : 2 ^ w ≤ v) :
    assembleSource bound w (.literal v) = .error .literalTooWide := by
  simp [assembleSource, literalFits_natCast, Nat.not_lt.2 h]

theorem assembleSource_literal {v : Nat} (h : v < 2 ^ w) :
    assembleSource bound w (.literal v) = .ok (.const (BitVec.ofNat 64 v)) := by
  simp [assembleSource, literalFits_natCast, h]

theorem assembleSource_unbound {n : String} (h : bound.lookup n = none) :
    assembleSource bound w (.name n) = .error .nameNotBound := by
  simp only [assembleSource, h]

theorem assembleSource_name_tooWide {n : String} {width : Nat} (h : bound.lookup n = some width)
    (hwide : w < width) : assembleSource bound w (.name n) = .error .nameTooWide := by
  simp only [assembleSource, h, Nat.not_le.2 hwide, if_false]

theorem assembleSource_name {n : String} {width : Nat} (h : bound.lookup n = some width)
    (hfits : width ≤ w) : assembleSource bound w (.name n) = .ok (.name (.user n)) := by
  simp only [assembleSource, h, hfits, if_true]

end Source

/-! ### A line -/

section Line
variable {start : List (String × Word)} {bound : Bound} {dest m : String} {s : Bool} {o : SrcOperand}
  {chain : List Component}

theorem assembleLine_unknown (h : chainOf m = none) :
    assembleLine start bound (.op dest m s o) = .error .unknownMnemonic := by
  simp only [assembleLine, h]

/-- A bad operand refuses its line, whatever the name is. -/
theorem assembleLine_badSource {e : AsmError} (hchain : chainOf m = some chain)
    (ho : assembleSource bound (chainInWidth chain) o = .error e) :
    assembleLine start bound (.op dest m s o) = .error e := by
  simp only [assembleLine, hchain, ho]

theorem assembleLine_destBound {a : AsmOperand} {width : Nat} (hchain : chainOf m = some chain)
    (ho : assembleSource bound (chainInWidth chain) o = .ok a) (hdest : bound.lookup dest = some width) :
    assembleLine start bound (.op dest m s o) = .error .nameBoundTwice := by
  simp only [assembleLine, hchain, ho, hdest]

theorem assembleLine_accepted {a : AsmOperand} (hchain : chainOf m = some chain)
    (ho : assembleSource bound (chainInWidth chain) o = .ok a) (hdest : bound.lookup dest = none) :
    assembleLine start bound (.op dest m s o) =
      .ok { ops := expand dest s a chain, bound := [(dest, chainOutWidth chain)], inputs := [] } := by
  simp only [assembleLine, hchain, ho, hdest]

theorem assembleLine_input_bound {n : String} {width : Nat} (h : bound.lookup n = some width) :
    assembleLine start bound (.input n) = .error .nameBoundTwice := by
  simp only [assembleLine, h]

theorem assembleLine_input_noStart {n : String} (h : bound.lookup n = none)
    (hstart : start.lookup n = none) : assembleLine start bound (.input n) = .error .nameNotBound := by
  simp only [assembleLine, h, hstart]

theorem assembleLine_input {n : String} {v : Word} (h : bound.lookup n = none)
    (hstart : start.lookup n = some v) :
    assembleLine start bound (.input n) = .ok { ops := [], bound := [(n, bitLength v)], inputs := [(n, v)] } := by
  simp only [assembleLine, h, hstart]

/-- An accepted input line has a start value, and adds its name alone. -/
theorem assembleLine_input_ok {n : String} {a : Assembled}
    (h : assembleLine start bound (.input n) = .ok a) :
    ∃ v, start.lookup n = some v ∧ a = { ops := [], bound := [(n, bitLength v)], inputs := [(n, v)] } := by
  simp only [assembleLine] at h
  split at h
  · cases h
  · cases h
  · rename_i v _ hv
    cases h
    exact ⟨v, hv, rfl⟩

end Line

/-! ### A numeral with a minus sign -/

/-- A minus sign is no digit, so what begins with it is no literal of R75. -/
theorem parseLiteral_minus (cs : List Char) : parseLiteral ('-' :: cs) = none := rfl

theorem parseOperand_minus {cs : List Char} {v : Nat} (h : parseLiteral cs = some v) :
    parseOperand ('-' :: cs) = if v = 0 then none else some (.literal (-(v : Int))) := by
  cases v with
  | zero => simp [parseOperand, parseLiteral_minus, h]
  | succ v => simp [parseOperand, parseLiteral_minus, h]

/-- Settles O51: the checks of the operand, then those of the name. -/
theorem assemblerRefusesBadLines : Obligations.AssemblerRefusesBadLines := by
  unfold Obligations.AssemblerRefusesBadLines
  intro start bound
  refine ⟨fun dest m s => ⟨fun o => assembleLine_unknown, fun chain hchain => ?_⟩,
    fun n => ⟨fun w => assembleLine_input_bound, assembleLine_input_noStart, fun v => assembleLine_input⟩,
    fun cs v => parseOperand_minus⟩
  exact ⟨fun v hv => assembleLine_badSource hchain (assembleSource_negative hv),
    fun v hv => assembleLine_badSource hchain (assembleSource_tooWide hv),
    fun n hn => assembleLine_badSource hchain (assembleSource_unbound hn),
    fun n w hn hw => assembleLine_badSource hchain (assembleSource_name_tooWide hn hw),
    fun n w w' hn hw => assembleLine_destBound hchain (assembleSource_name hn hw),
    fun v w' hv => assembleLine_destBound hchain (assembleSource_literal hv),
    fun v hv => assembleLine_accepted hchain (assembleSource_literal hv),
    fun n w hn hw => assembleLine_accepted hchain (assembleSource_name hn hw)⟩

/-! ### A program, line by line -/

/-- What the assembler makes of a line's text: a blank line adds nothing, and a text outside the grammar is refused. -/
def assembleText (start : List (String × Word)) (bound : Bound) (text : String) : Except AsmError Assembled :=
  match parseLine text with
  | .blank => .ok { ops := [], bound := [], inputs := [] }
  | .bad => .error .notALine
  | .line l => assembleLine start bound l

theorem assembleText_line {text : String} {l : SrcLine} (h : parseLine text = .line l)
    (start : List (String × Word)) (bound : Bound) : assembleText start bound text = assembleLine start bound l := by
  simp only [assembleText, h]

/-- What line `n` adds, before what the later lines add. -/
def Assembled.before (a : Assembled) (n : Nat) (p : Program) : Program :=
  { ops := a.ops.map (fun o => (n, o)) ++ p.ops, inputs := a.inputs ++ p.inputs }

section Program
variable {start : List (String × Word)} {bound : Bound} {text : String}

/-- A bad line refuses the program with its number, whatever follows it (R76). -/
theorem assembleFrom_cons_error {e : AsmError} (h : assembleText start bound text = .error e) (n : Nat)
    (rest : List String) : assembleFrom start n bound (text :: rest) = .error { line := n, why := e } := by
  unfold assembleText at h
  rw [assembleFrom]
  cases hparse : parseLine text with
  | blank => rw [hparse] at h; cases h
  | bad => rw [hparse] at h; cases h; rfl
  | line l =>
    rw [hparse] at h
    dsimp only at h
    simp only [h]

/-- An accepted line adds its part to what the rest of the program makes. -/
theorem assembleFrom_cons_ok {a : Assembled} (h : assembleText start bound text = .ok a) (n : Nat)
    (rest : List String) :
    assembleFrom start n bound (text :: rest) =
      (assembleFrom start (n + 1) (a.bound ++ bound) rest).map (a.before n) := by
  unfold assembleText at h
  rw [assembleFrom]
  cases hparse : parseLine text with
  | blank =>
    rw [hparse] at h
    cases h
    dsimp only
    rw [List.nil_append]
    cases assembleFrom start (n + 1) bound rest <;> rfl
  | bad => rw [hparse] at h; cases h
  | line l =>
    rw [hparse] at h
    dsimp only at h
    simp only [h]
    cases assembleFrom start (n + 1) (a.bound ++ bound) rest <;> rfl

/-- An accepted program is an accepted line before an accepted program. -/
theorem assembleFrom_cons_inv {n : Nat} {rest : List String} {p : Program}
    (h : assembleFrom start n bound (text :: rest) = .ok p) :
    ∃ a q, assembleText start bound text = .ok a ∧
      assembleFrom start (n + 1) (a.bound ++ bound) rest = .ok q ∧ p = a.before n q := by
  cases ha : assembleText start bound text with
  | error e => cases (assembleFrom_cons_error ha n rest).symm.trans h
  | ok a =>
    rw [assembleFrom_cons_ok ha] at h
    cases hq : assembleFrom start (n + 1) (a.bound ++ bound) rest with
    | error e => rw [hq] at h; cases h
    | ok q => rw [hq] at h; cases h; exact ⟨a, q, rfl, hq, rfl⟩

end Program

/-- The refused line of a program that starts at line `n` is line `n + k` for a `k` below the program's length: the
first `k` lines are accepted, and the first `k + 1` are refused in the same way. -/
theorem assembleFrom_error {start : List (String × Word)} {lines : List String} {n : Nat} {bound : Bound}
    {e : AsmRefusal} (h : assembleFrom start n bound lines = .error e) :
    ∃ k < lines.length, e.line = n + k ∧ (∃ p, assembleFrom start n bound (lines.take k) = .ok p) ∧
      assembleFrom start n bound (lines.take (k + 1)) = .error e := by
  induction lines generalizing n bound with
  | nil => cases h
  | cons text rest ih =>
    cases ha : assembleText start bound text with
    | error why =>
      have hbad := assembleFrom_cons_error ha n
      cases (hbad rest).symm.trans h
      exact ⟨0, Nat.succ_pos _, rfl, ⟨_, rfl⟩, hbad _⟩
    | ok a =>
      have hgood := assembleFrom_cons_ok ha n
      rw [hgood] at h
      cases hq : assembleFrom start (n + 1) (a.bound ++ bound) rest with
      | ok q => rw [hq] at h; cases h
      | error e' =>
        rw [hq] at h
        cases h
        obtain ⟨k, hk, hline, ⟨p, hp⟩, hrefused⟩ := ih hq
        refine ⟨k + 1, Nat.succ_lt_succ hk, by omega, ⟨a.before n p, ?_⟩, ?_⟩
        · rw [List.take_succ_cons, hgood, hp]
          rfl
        · rw [List.take_succ_cons, hgood, hrefused]
          rfl

/-! ### Loading a program -/

theorem step_load (st : State) (start : List (String × Word)) (lines : List String) (rest : List HostAction) :
    step (st.withScript (.load start lines :: rest)) = loadProgram start lines (st.withScript rest) :=
  step_cons (State.withScript_script st _)

theorem loadProgram_refused {st : State} {start : List (String × Word)} {lines : List String} {e : AsmRefusal}
    (h : assemble start st.names lines = .error e) : loadProgram start lines st = .refused (.asm e.line e.why) := by
  simp only [loadProgram, h]

theorem loadProgram_accepted {st : State} {start : List (String × Word)} {lines : List String} {p : Program}
    (h : assemble start st.names lines = .ok p) :
    loadProgram start lines st =
      .next ((bindInputs p.inputs st).withScript (p.ops.map (fun o => HostAction.op o.1 o.2) ++ st.script)) := by
  simp only [loadProgram, h]

/-- Settles O52: loading a refused program refuses with its first bad line. -/
theorem refusedProgramStopsTheRun : Obligations.RefusedProgramStopsTheRun := by
  unfold Obligations.RefusedProgramStopsTheRun
  intro st start lines rest e h
  refine ⟨(step_load ..).trans (loadProgram_refused (st := st.withScript rest) h), ?_⟩
  obtain ⟨k, hk, hline, haccepted, hrefused⟩ := assembleFrom_error h
  rw [hline, Nat.add_sub_cancel_left, Nat.add_comm 1 k]
  exact ⟨Nat.le_add_left 1 k, hk, haccepted, hrefused⟩

end Sys2Proof.Machine
end

