-- ==== Sys2Proof/Proofs/Loading.lean ====
section
/-! PROOFS. What loading an accepted program puts in the script and in the host's names (30_encoding.md R75, R80), and
what a line of one operation binds (R63, R70). -/

namespace Sys2Proof.Machine

open Sys2Proof.Statements

/-! ### The operations of a line -/

/-- The identifiers of a chain's operations: `.s` is on the last one (R80). -/
theorem opsel_expandFrom (dest : String) (s : Bool) (k : Nat) (o : AsmOperand) (chain : List Component) :
    (expandFrom dest s k o chain).map AsmOp.opsel =
      chain.dropLast.map (fun c => c.opsel false) ++ chain.getLast?.toList.map (fun c => c.opsel s) := by
  induction chain generalizing k o with
  | nil => rfl
  | cons c rest ih =>
    cases rest with
    | nil => rfl
    | cons d rest =>
      rw [expandFrom, List.map_cons, ih]
      rfl

/-- An accepted text adds the operations it stands for. -/
theorem assembleText_opsels {start : List (String × Word)} {bound : Bound} {text : String} {a : Assembled}
    (h : assembleText start bound text = .ok a) : a.ops.map AsmOp.opsel = opselsOfLine text := by
  unfold assembleText at h
  unfold opselsOfLine
  cases hparse : parseLine text with
  | blank => rw [hparse] at h; cases h; rfl
  | bad => rw [hparse] at h; cases h
  | line l =>
    rw [hparse] at h
    cases l with
    | input n =>
      obtain ⟨v, -, rfl⟩ := assembleLine_input_ok h
      rfl
    | op dest m s o =>
      obtain ⟨chain, o', hchain, -, -, rfl⟩ := assembleLine_op_ok h
      simp only [hchain]
      exact opsel_expandFrom dest s 0 o' chain

/-- An accepted program has the operations of its lines, in order. -/
theorem assembleFrom_opsels {start : List (String × Word)} {lines : List String} {n : Nat} {bound : Bound}
    {p : Program} (h : assembleFrom start n bound lines = .ok p) :
    p.ops.map (fun o => o.2.opsel) = lines.flatMap opselsOfLine := by
  induction lines generalizing n bound p with
  | nil => cases h; rfl
  | cons text rest ih =>
    obtain ⟨a, q, ha, hq, rfl⟩ := assembleFrom_cons_inv h
    rw [List.flatMap_cons, ← ih hq, ← assembleText_opsels ha, Assembled.before, List.map_append, List.map_map]
    rfl

/-! ### The input lines -/

/-- An accepted input line names its start value. -/
theorem assembleText_input {start : List (String × Word)} {bound : Bound} {text n : String} {a : Assembled}
    (h : assembleText start bound text = .ok a) (hparse : parseLine text = .line (.input n)) :
    ∃ v, start.lookup n = some v ∧ a.inputs = [(n, v)] := by
  rw [assembleText_line hparse] at h
  obtain ⟨v, hv, rfl⟩ := assembleLine_input_ok h
  exact ⟨v, hv, rfl⟩

/-- Only an input line names an input value. -/
theorem parseLine_of_mem_inputs {start : List (String × Word)} {bound : Bound} {text : String} {a : Assembled}
    (h : assembleText start bound text = .ok a) {b : String × Word} (hb : b ∈ a.inputs) :
    parseLine text = .line (.input b.1) := by
  unfold assembleText at h
  cases hparse : parseLine text with
  | blank => rw [hparse] at h; cases h; cases hb
  | bad => rw [hparse] at h; cases h
  | line l =>
    rw [hparse] at h
    cases l with
    | input n =>
      obtain ⟨v, -, rfl⟩ := assembleLine_input_ok h
      cases List.mem_singleton.1 hb
      rfl
    | op dest m s o =>
      obtain ⟨chain, o', -, -, -, rfl⟩ := assembleLine_op_ok h
      cases hb

/-- Every input line of an accepted program has its start value among the program's inputs. -/
theorem mem_inputs_of_line {start : List (String × Word)} {lines : List String} {k : Nat} {bound : Bound}
    {p : Program} (h : assembleFrom start k bound lines = .ok p) {text n : String} (htext : text ∈ lines)
    (hparse : parseLine text = .line (.input n)) : ∃ v, start.lookup n = some v ∧ (n, v) ∈ p.inputs := by
  induction lines generalizing k bound p with
  | nil => cases htext
  | cons first rest ih =>
    obtain ⟨a, q, ha, hq, rfl⟩ := assembleFrom_cons_inv h
    rcases List.mem_cons.1 htext with rfl | hrest
    · obtain ⟨v, hv, hinputs⟩ := assembleText_input ha hparse
      exact ⟨v, hv, List.mem_append_left _ (hinputs ▸ List.mem_singleton_self _)⟩
    · obtain ⟨v, hv, hmem⟩ := ih hq hrest
      exact ⟨v, hv, List.mem_append_right _ hmem⟩

/-- Every input of an accepted program comes from one of its input lines. -/
theorem line_of_mem_inputs {start : List (String × Word)} {lines : List String} {k : Nat} {bound : Bound}
    {p : Program} (h : assembleFrom start k bound lines = .ok p) {b : String × Word} (hb : b ∈ p.inputs) :
    ∃ text ∈ lines, parseLine text = .line (.input b.1) := by
  induction lines generalizing k bound p with
  | nil => cases h; cases hb
  | cons first rest ih =>
    obtain ⟨a, q, ha, hq, rfl⟩ := assembleFrom_cons_inv h
    rcases List.mem_append.1 hb with hfirst | hrest
    · exact ⟨first, List.mem_cons_self, parseLine_of_mem_inputs ha hfirst⟩
    · obtain ⟨text, htext, hparse⟩ := ih hq hrest
      exact ⟨text, List.mem_cons_of_mem _ htext, hparse⟩

/-! ### Binding the input names -/

theorem lookup_bindName_ne {n n' : Name} (h : n ≠ n') (st : State) (r : Reading) :
    (st.bindName n' r).names.lookup n = st.names.lookup n := by
  rw [State.bindName_names, List.lookup_cons, beq_eq_false_iff_ne.2 h]

section BindInputs
variable (inputs : List (String × Word)) (st : State)

@[simp] theorem bindInputs_cfg : (bindInputs inputs st).cfg = st.cfg := by rw [bindInputs_eq]
@[simp] theorem bindInputs_ports : (bindInputs inputs st).ports = st.ports := by rw [bindInputs_eq]
@[simp] theorem bindInputs_results : (bindInputs inputs st).results = st.results := by rw [bindInputs_eq]
theorem bindInputs_withScript (script : List HostAction) :
    bindInputs inputs (st.withScript script) = (bindInputs inputs st).withScript script := by
  rw [bindInputs_eq, bindInputs_eq]
  rfl

end BindInputs

/-- A name that is no input name keeps its value. -/
theorem lookup_bindInputs_other {inputs : List (String × Word)} {n : Name} (st : State)
    (h : ∀ b ∈ inputs, n ≠ .user b.1) : (bindInputs inputs st).names.lookup n = st.names.lookup n := by
  induction inputs generalizing st with
  | nil => rfl
  | cons b rest ih =>
    obtain ⟨hhead, htail⟩ := List.forall_mem_cons.1 h
    rw [bindInputs, ih _ htail, lookup_bindName_ne hhead]

/-- An input name is bound to its start value. -/
theorem lookup_bindInputs_mem {inputs : List (String × Word)} {n : String} {v : Word} (st : State)
    (hnodup : (inputs.map Prod.fst).Nodup) (h : (n, v) ∈ inputs) :
    (bindInputs inputs st).names.lookup (.user n) = some (inputReading v) := by
  induction inputs generalizing st with
  | nil => cases h
  | cons b rest ih =>
    obtain ⟨hnew, hnodup⟩ := List.nodup_cons.1 hnodup
    rcases List.mem_cons.1 h with rfl | hrest
    · have hother : ∀ b ∈ rest, Name.user n ≠ .user b.1 :=
        fun b hb heq => hnew (List.mem_map.2 ⟨b, hb, (Name.user.inj heq).symm⟩)
      rw [bindInputs, lookup_bindInputs_other _ hother, State.bindName_names, List.lookup_cons_self]
    · rw [bindInputs]
      exact ih _ hnodup hrest

/-- Settles O53: the inputs of an accepted program are those of its input lines, distinct and free. -/
theorem acceptedProgramIsLoaded : Obligations.AcceptedProgramIsLoaded := by
  unfold Obligations.AcceptedProgramIsLoaded
  intro st start lines rest p h
  obtain ⟨hnodup, hfree⟩ := assemble_inputs h
  refine ⟨_, (step_load ..).trans (loadProgram_accepted (st := st.withScript rest) h), rfl, assembleFrom_opsels h,
    fun text htext n hparse => ?_, fun n r hr => ?_, fun n hn => ?_, ?_, ?_, ?_⟩
  · obtain ⟨v, hv, hmem⟩ := mem_inputs_of_line h htext hparse
    exact ⟨v, hv, lookup_bindInputs_mem _ hnodup hmem⟩
  · have hother : ∀ b ∈ p.inputs, n ≠ .user b.1 := by
      rintro b hb rfl
      cases (hfree b hb).symm.trans hr
    exact (lookup_bindInputs_other _ hother).trans hr
  · obtain ⟨b, hb, rfl⟩ : ∃ b ∈ p.inputs, n = .user b.1 := by
      by_contra hnone
      exact hn (lookup_bindInputs_other _ fun b hb heq => hnone ⟨b, hb, heq⟩)
    obtain ⟨text, htext, hparse⟩ := line_of_mem_inputs h hb
    exact ⟨text, htext, b.1, hparse, rfl⟩
  · simp only [State.withScript_cfg, bindInputs_cfg]
  · simp only [State.withScript_ports, bindInputs_ports]
  · simp only [State.withScript_results, bindInputs_results]

/-! ### A line of one operation -/

/-- A line of one operation, as the assembler leaves it. -/
def lineOp (dest : String) (s : Bool) (c : Component) (o : AsmOperand) : AsmOp :=
  { dest := .user dest, opsel := c.opsel s, operand := o }

section LineOp
variable {st : State} {start : List (String × Word)} {dest m : String} {s : Bool} {c : Component}
  {rest : List HostAction}

/-- An operation of a free name and a readable operand gives its unit's result and binds it (R63, R70, R75). -/
theorem runOp_lineOp {o : AsmOperand} {w : Word} (line : Nat) (hfree : st.names.lookup (.user dest) = none)
    (hw : operandValue st o = some w) :
    ∃ t, runOp line (lineOp dest s c o) st = .next t ∧ t.script = st.script ∧
      t.results = resultOf st.cfg c s (w.setWidth c.inWidth) :: st.results ∧
      t.names = (.user dest, resultOf st.cfg c s (w.setWidth c.inWidth)) :: st.names := by
  refine ⟨_, runOp_eq (o := lineOp dest s c o) hfree hw (componentOf_opsel c s), rfl, ?_, ?_⟩
  · simp only [State.bindName_results, State.record_results, drivePort_results, lineOp, opselS_opsel]
    rfl
  · simp only [State.bindName_names, State.record_names, drivePort_names, lineOp, opselS_opsel]
    rfl

theorem step_op (st : State) (line : Nat) (o : AsmOp) (rest : List HostAction) :
    step (st.withScript (.op line o :: rest)) = runOp line o (st.withScript rest) :=
  step_cons (State.withScript_script st _)

/-- A program of one operation, loaded and run: two steps. -/
theorem run_lineOp {lines : List String} {line : Nat} {o : AsmOperand} {w : Word} {inputs : List (String × Word)}
    (hprogram : assemble start st.names lines = .ok { ops := [(line, lineOp dest s c o)], inputs := inputs })
    (hfree : (bindInputs inputs st).names.lookup (.user dest) = none)
    (hw : operandValue (bindInputs inputs st) o = some w) :
    ∃ t, run 2 (st.withScript (.load start lines :: rest)) = .next t ∧ t.script = rest ∧
      t.results = resultOf st.cfg c s (w.setWidth c.inWidth) :: st.results ∧
      t.names = (.user dest, resultOf st.cfg c s (w.setWidth c.inWidth)) :: (bindInputs inputs st).names := by
  have hload : step (st.withScript (.load start lines :: rest)) =
      .next ((bindInputs inputs st).withScript (.op line (lineOp dest s c o) :: rest)) := by
    rw [step_load, loadProgram_accepted (st := st.withScript rest) hprogram, bindInputs_withScript]
    rfl
  obtain ⟨t, ht, hscript, hresults, hnames⟩ :=
    runOp_lineOp (st := (bindInputs inputs st).withScript rest) (s := s) (c := c) line hfree hw
  rw [State.withScript_cfg, bindInputs_cfg] at hresults hnames
  rw [State.withScript_results, bindInputs_results] at hresults
  exact ⟨t, (run_next hload).trans (run_next ((step_op ..).trans ht)), hscript, hresults, hnames⟩

/-- A line of one operation is a program of one operation, where its operand is good and its name free. -/
theorem assembleFrom_lineOp {text : String} {operand : SrcOperand} {bound : Bound} {o : AsmOperand}
    (hchain : chainOf m = some [c]) (hparse : parseLine text = .line (.op dest m s operand))
    (ho : assembleSource bound c.inWidth operand = .ok o) (hfree : bound.lookup dest = none) (n : Nat) :
    assembleFrom start n bound [text] = .ok { ops := [(n, lineOp dest s c o)], inputs := [] } := by
  have hline := (assembleText_line hparse start bound).trans (assembleLine_accepted hchain ho hfree)
  rw [assembleFrom_cons_ok hline]
  rfl

/-- An input line before a program adds its name to what the program's lines know. -/
theorem assembleFrom_input_cons {first n : String} {v : Word} {bound : Bound} {lines : List String} {k : Nat}
    {p : Program} (hparse : parseLine first = .line (.input n)) (hfree : bound.lookup n = none)
    (hv : start.lookup n = some v) (h : assembleFrom start (k + 1) ((n, bitLength v) :: bound) lines = .ok p) :
    assembleFrom start k bound (first :: lines) = .ok { ops := p.ops, inputs := (n, v) :: p.inputs } := by
  have hline := (assembleText_line hparse start bound).trans (assembleLine_input hfree hv)
  rw [assembleFrom_cons_ok hline, List.singleton_append, h]
  rfl

end LineOp

/-! ### Operands of a line -/

theorem boundOf_lookup_of_free {names : List (Name × Reading)} {n : String} (h : names.lookup (.user n) = none) :
    (boundOf names).lookup n = none := by
  rw [boundOf_lookup, h, Option.map_none]

theorem boundOf_lookup_of_bound {names : List (Name × Reading)} {n : String} {r : Reading}
    (h : names.lookup (.user n) = some r) : (boundOf names).lookup n = some r.width := by
  rw [boundOf_lookup, h, Option.map_some]

theorem operandValue_name {st : State} {n : Name} {r : Reading} (h : st.names.lookup n = some r) :
    operandValue st (.name n) = some r.bits := by
  rw [operandValue, h, Option.map_some]

/-- A literal on the operand bus, cut to the port, is the literal at the port's width (R63). -/
theorem setWidth_literal (c : Component) (v : Nat) :
    (BitVec.ofNat 64 v).setWidth c.inWidth = BitVec.ofNat c.inWidth v :=
  BitVec.setWidth_ofNat_of_le (inWidth_le c) v

/-- Settles O54: the line assembles to one operation, whose operand is the literal, the host's value or the start
value. -/
theorem linesBindTheirResults : Obligations.LinesBindTheirResults := by
  unfold Obligations.LinesBindTheirResults
  intro st start text dest m s c rest hchain hfree
  have hdest := boundOf_lookup_of_free hfree
  refine ⟨fun v hparse hv => ?_, fun n r hparse hr hwidth => ?_, fun n v first hfirst hparse hne hn hv hfits => ?_⟩
  · have hprogram := assembleFrom_lineOp (start := start) hchain hparse (assembleSource_literal hv) hdest 1
    rw [← setWidth_literal]
    exact run_lineOp hprogram hfree rfl
  · have hsource := assembleSource_name (boundOf_lookup_of_bound hr) hwidth
    have hprogram := assembleFrom_lineOp (start := start) hchain hparse hsource hdest 1
    exact run_lineOp hprogram hfree (operandValue_name hr)
  · have hsource := assembleSource_name (bound := (n, bitLength v) :: boundOf st.names) List.lookup_cons_self
      ((bitLength_le_iff v c.inWidth).2 hfits)
    have hdestAfter : List.lookup dest ((n, bitLength v) :: boundOf st.names) = none := by
      rw [List.lookup_cons, beq_eq_false_iff_ne.2 hne.symm]
      exact hdest
    have hprogram := assembleFrom_input_cons hfirst (boundOf_lookup_of_free hn) hv
      (assembleFrom_lineOp hchain hparse hsource hdestAfter 2)
    have hfreeAfter : (bindInputs [(n, v)] st).names.lookup (.user dest) = none :=
      (lookup_bindName_ne (fun h => hne (Name.user.inj h).symm) st _).trans hfree
    exact run_lineOp hprogram hfreeAfter
      (operandValue_name (lookup_bindInputs_mem (inputs := [(n, v)]) st (List.nodup_singleton n) List.mem_cons_self))

end Sys2Proof.Machine
end

