-- ==== Sys2Proof/Proofs/EncoderBits.lean ====
section
/-! PROOFS. The shared encoder bit by bit (40_parity_encoders.md R100, R101), and its linearity over GF(2) (R106). -/

namespace Sys2Proof.Machine

open Sys2Proof.Statements

/-! ### The parity of a list of bits -/

section Parity
variable (bit bit' : Nat → Bool)

@[simp] theorem parityOf_nil : parityOf bit [] = false := rfl

@[simp] theorem parityOf_cons (j : Nat) (S : List Nat) : parityOf bit (j :: S) = (bit j ^^ parityOf bit S) := by
  rw [parityOf, parityOf, List.countP_cons]
  cases bit j
  · simp
  · simp only [Bool.true_xor, if_true, ← decide_not, decide_eq_decide]
    omega

theorem parityOf_one (a : Nat) : parityOf bit [a] = bit a := by
  simp

theorem parityOf_two (a b : Nat) : parityOf bit [a, b] = (bit a != bit b) := by
  simp

theorem parityOf_three (a b c : Nat) : parityOf bit [a, b, c] = (bit a ^^ bit b ^^ bit c) := by
  simp

theorem parityOf_xor (S : List Nat) :
    parityOf (fun j => bit j ^^ bit' j) S = (parityOf bit S ^^ parityOf bit' S) := by
  induction S with
  | nil => rfl
  | cons j S ih =>
    rw [parityOf_cons, parityOf_cons, parityOf_cons, ih]
    simp only [Bool.xor_assoc, Bool.xor_left_comm]

theorem parityOf_congr {bit bit' : Nat → Bool} {S : List Nat} (h : ∀ j ∈ S, bit j = bit' j) :
    parityOf bit S = parityOf bit' S := by
  rw [parityOf, parityOf, List.countP_congr fun j hj => by rw [h j hj]]

end Parity

/-- The parity of a single bit over a set is whether the set has it. -/
theorem parityOf_single {S : List Nat} (hS : S.Nodup) (j : Nat) :
    parityOf (fun i => decide (i = j)) S = S.contains j := by
  have hcount : S.countP (fun i => decide (i = j)) = if j ∈ S then 1 else 0 := hS.count
  rw [parityOf, hcount]
  by_cases hj : j ∈ S <;> simp [hj]

/-- The bits of a single bit. -/
theorem getLsbD_one_shiftLeft {n j : Nat} (hj : j < n) (i : Nat) : (1#n <<< j).getLsbD i = decide (i = j) := by
  rw [BitVec.getLsbD_shiftLeft, BitVec.getLsbD_one]
  grind

/-! ### The bits of an output -/

/-- Row `i` of a matrix, where a number past the last row gives no indices, is a set of indices below k. -/
theorem isMatrix_row {k n : Nat} {H : ParityMatrix} (hH : IsMatrix k n H) (i : Nat) :
    (H.getD i []).Nodup ∧ ∀ j ∈ H.getD i [], j < k := by
  rcases Nat.lt_or_ge i H.length with hi | hi
  · rw [List.getD_eq_getElem _ _ hi]
    exact hH.2 _ (List.getElem_mem hi)
  · rw [List.getD_eq_default _ _ hi]
    exact ⟨List.nodup_nil, by simp⟩

section Encoder
variable {k n : Nat} {H : ParityMatrix} (hH : IsMatrix k n H)
include hH

/-- An output bit by bit: the input's data bits, then the parity of each row (R100). -/
theorem getLsbD_enc (v : BitVec n) (p : Nat) : (enc k n H v).getLsbD p =
    if p < k then v.getLsbD p else parityOf (fun j => v.getLsbD j) (H.getD (p - k) []) := by
  rw [enc, getLsbD_codeword hH.1, BitVec.getLsbD_setWidth, xorOver_setWidth v _ (isMatrix_row hH (p - k)).2, parityOf]
  by_cases hp : p < k <;> simp [hp]

theorem getLsbD_enc_data (v : BitVec n) {j : Nat} (hj : j < k) : (enc k n H v).getLsbD j = v.getLsbD j := by
  rw [getLsbD_enc hH, if_pos hj]

theorem getLsbD_enc_parity (v : BitVec n) (i : Nat) :
    (enc k n H v).getLsbD (k + i) = parityOf (fun j => v.getLsbD j) (H.getD i []) := by
  rw [getLsbD_enc hH, if_neg (by omega), Nat.add_sub_cancel_left]

/-- Linearity (R106), for inputs with dirty high bits too. -/
theorem enc_xor (v w : BitVec n) : enc k n H (v ^^^ w) = enc k n H v ^^^ enc k n H w := by
  refine BitVec.eq_of_getLsbD_eq fun p _ => ?_
  simp only [BitVec.getLsbD_xor, getLsbD_enc hH, parityOf_xor]
  split <;> rfl

theorem enc_zero : enc k n H 0#n = 0#n := by
  have h := enc_xor hH 0#n 0#n
  rwa [BitVec.xor_self, BitVec.xor_self] at h

/-- The codeword of data bit `j` alone: bit `j`, and the parity bits of the rows that list `j` (R106). -/
theorem getLsbD_enc_single {j : Nat} (hj : j < k) (p : Nat) : (enc k n H (1#n <<< j)).getLsbD p =
    (decide (p = j) || decide (k ≤ p) && (H.getD (p - k) []).contains j) := by
  have hjn : j < n := Nat.lt_of_lt_of_le hj (hH.1 ▸ Nat.le_add_right ..)
  simp only [getLsbD_enc hH, getLsbD_one_shiftLeft hjn, parityOf_single (isMatrix_row hH (p - k)).1]
  split
  · next hp => simp [Nat.not_le.2 hp]
  · next hp => simp [Nat.not_lt.1 hp, show p ≠ j by omega]

/-- The low `m` bits of a data word, encoded, are the XOR of the codewords of its single bits. -/
theorem enc_low_bits (d : BitVec k) {m : Nat} (hm : m ≤ k) : enc k n H ((d.setWidth m).setWidth n) =
    ((List.range m).filter (fun j => d.getLsbD j)).foldl (fun acc j => acc ^^^ enc k n H (1#n <<< j)) 0#n := by
  induction m with
  | zero => simp [BitVec.of_length_zero, enc_zero hH]
  | succ m ih =>
    have hsplit : (d.setWidth (m + 1)).setWidth n =
        (d.setWidth m).setWidth n ^^^ if d.getLsbD m then 1#n <<< m else 0#n := by
      refine BitVec.eq_of_getLsbD_eq fun p hp => ?_
      by_cases hdm : d.getLsbD m <;> simp [hdm, hp] <;> grind
    rw [hsplit, enc_xor hH, ih (by omega), List.range_succ, List.filter_append, List.foldl_append]
    by_cases hdm : d.getLsbD m <;> simp [hdm, enc_zero hH]

end Encoder

/-- Settles O8: the output bit by bit. -/
theorem sharedEncoderAlgorithm : Obligations.SharedEncoderAlgorithm := by
  unfold Obligations.SharedEncoderAlgorithm
  intro k n H v hH
  exact ⟨fun j hj => getLsbD_enc_data hH v hj, fun i _ => getLsbD_enc_parity hH v i⟩

/-- Settles O9: the parity of a row is linear, and a data word is the XOR of its single bits. -/
theorem encoderIsLinear : Obligations.EncoderIsLinear := by
  unfold Obligations.EncoderIsLinear
  intro k n H hH
  refine ⟨fun a b => ?_, fun j hj => getLsbD_enc_single hH hj, fun d => ?_⟩
  · rw [BitVec.setWidth_xor, enc_xor hH]
  · have h := enc_low_bits hH d (Nat.le_refl k)
    rwa [BitVec.setWidth_eq] at h

end Sys2Proof.Machine
end

