-- ==== Sys2Proof/Proofs/Weights.lean ====
section
/-! PROOFS. The weights of codewords, and the distance of a code by its columns (40_parity_encoders.md R108). -/

namespace Sys2Proof.Machine

open Sys2Proof.Statements

/-! ### Weights -/

/-- The positions of a value's 1 bits. -/
def support {w : Nat} (v : BitVec w) : List Nat := (List.range w).filter (fun j => v.getLsbD j)

theorem nodup_support {w : Nat} (v : BitVec w) : (support v).Nodup := List.nodup_range.filter _

theorem mem_support {w : Nat} {v : BitVec w} {j : Nat} : j ∈ support v ↔ v.getLsbD j = true := by
  rw [support, List.mem_filter, List.mem_range, and_iff_right_iff_imp]
  exact BitVec.lt_of_getLsbD

theorem lt_of_mem_support {w : Nat} {v : BitVec w} {j : Nat} (hj : j ∈ support v) : j < w :=
  BitVec.lt_of_getLsbD (mem_support.1 hj)

theorem ones_eq_length_support {w : Nat} (v : BitVec w) : ones v = (support v).length :=
  List.countP_eq_length_filter

theorem support_eq_nil_iff {w : Nat} {v : BitVec w} : support v = [] ↔ v = 0 := by
  rw [List.eq_nil_iff_forall_not_mem]
  constructor
  · exact fun h => BitVec.eq_of_getLsbD_eq fun j _ => by simpa [mem_support] using h j
  · rintro rfl j
    simp [mem_support]

/-- The value whose 1 bits are at the indices of a list. -/
def bitsAt (w : Nat) (S : List Nat) : BitVec w := BitVec.ofFnLE fun j => decide (j.1 ∈ S)

/-- A set of indices below `w` is the support of the value that has its bits there. -/
theorem support_bitsAt_perm {w : Nat} {S : List Nat} (hS : S.Nodup) (hlt : ∀ j ∈ S, j < w) :
    (support (bitsAt w S)).Perm S := by
  rw [List.perm_ext_iff_of_nodup (nodup_support _) hS]
  intro j
  rw [mem_support, bitsAt, BitVec.getLsbD_ofFnLE]
  by_cases hj : j < w
  · simp [hj]
  · simpa [hj] using fun h => hj (hlt j h)

/-- The weight of a value is the weight of its low `k` bits and of the `m` bits above them. -/
theorem ones_eq_low_add_high {n k m : Nat} (h : k + m = n) (v : BitVec n) :
    ones v = ones (v.setWidth k) + (List.range m).countP (fun i => v.getLsbD (k + i)) := by
  subst h
  rw [ones, List.range_add, List.countP_append, List.countP_map, ones]
  congr 1
  refine List.countP_congr fun j hj => ?_
  simp [List.mem_range.1 hj]

/-- The weight of a value shifted down by `k` is that of the `m` bits that are left. -/
theorem ones_ushiftRight {n k m : Nat} (h : k + m = n) (v : BitVec n) :
    ones (v >>> k) = (List.range m).countP (fun i => v.getLsbD (k + i)) := by
  have hnone : (List.range k).countP (fun i => (v >>> k).getLsbD (m + i)) = 0 := by
    refine List.countP_eq_zero.2 fun i _ => ?_
    rw [BitVec.getLsbD_ushiftRight, BitVec.getLsbD_of_ge _ _ (by omega)]
    exact Bool.false_ne_true
  rw [ones_eq_low_add_high (k := m) (m := k) (by omega), hnone, ones, Nat.add_zero]
  refine List.countP_congr fun j hj => ?_
  simp [List.mem_range.1 hj]

/-- Counting over the rows of a matrix is counting over their numbers. -/
theorem countP_rows (H : ParityMatrix) (p : List Nat → Bool) :
    (List.range H.length).countP (fun i => p (H.getD i [])) = H.countP p := by
  have hrows : (List.range H.length).map (fun i => H.getD i []) = H :=
    List.ext_getElem (by simp) fun i _ hi => by simp [hi]
  conv_rhs => rw [← hrows, List.countP_map]
  rfl

/-! ### The weight of a codeword -/

section Encoder
variable {k n : Nat} {H : ParityMatrix} (hH : IsMatrix k n H)
include hH

theorem setWidth_enc (v : BitVec n) : (enc k n H v).setWidth k = v.setWidth k := by
  refine BitVec.eq_of_getLsbD_eq fun j hj => ?_
  simp [hj, getLsbD_enc_data hH v hj]

/-- The data word of a data word that is put on an input is itself. -/
theorem setWidth_setWidth_data (d : BitVec k) : (d.setWidth n).setWidth k = d := by
  rw [BitVec.setWidth_setWidth_of_le _ (hH.1 ▸ Nat.le_add_right ..), BitVec.setWidth_eq]

/-- An output's weight is the weight of the data word and the number of rows with odd parity. -/
theorem ones_enc (v : BitVec n) : ones (enc k n H v) =
    ones (v.setWidth k) + H.countP (parityOf fun j => v.getLsbD j) := by
  rw [ones_eq_low_add_high hH.1, setWidth_enc hH, ← countP_rows]
  simp only [getLsbD_enc_parity hH]

/-- The parity field's weight is the number of rows with odd parity. -/
theorem ones_enc_parity_field (v : BitVec n) : ones (enc k n H v >>> k) =
    H.countP (parityOf fun j => v.getLsbD j) := by
  rw [ones_ushiftRight hH.1, ← countP_rows]
  simp only [getLsbD_enc_parity hH]

/-- Counting over a row the data bits that are 1 is counting over the 1 bits of the data word those that the row
lists. -/
theorem parityOf_eq_of_support {d : BitVec k} {S : List Nat} (hS : (support d).Perm S) {row : List Nat}
    (hrow : row ∈ H) : parityOf (fun j => d.getLsbD j) row = parityOf row.contains S := by
  have hperm : (row.filter fun j => d.getLsbD j).Perm ((support d).filter row.contains) := by
    rw [List.perm_ext_iff_of_nodup ((hH.2 row hrow).1.filter _) ((nodup_support d).filter _)]
    simp [mem_support, and_comm]
  rw [parityOf, parityOf, ← hS.countP_eq, List.countP_eq_length_filter, List.countP_eq_length_filter,
    hperm.length_eq]

/-- The codeword's weight, from the data word's 1 bits: their number, and the number of rows that list an odd number
of them. -/
theorem ones_enc_of_support {d : BitVec k} {S : List Nat} (hS : (support d).Perm S) :
    ones (enc k n H (d.setWidth n)) = S.length + H.countP (fun row => parityOf row.contains S) := by
  have hkn : k + H.length = n := hH.1
  rw [ones_enc hH, setWidth_setWidth_data hH, ones_eq_length_support, hS.length_eq]
  congr 1
  refine List.countP_congr fun row hrow => ?_
  rw [← parityOf_eq_of_support hH hS hrow, parityOf_congr fun j hj => ?_]
  have hj : j < k := (hH.2 row hrow).2 j hj
  simp [show j < n by omega]

/-! ### Distance 4 -/

/-- If nonzero data words have weight at least 4, every nonempty set of data bits does, counted over the columns. -/
theorem four_le_weight_of_bits (hweight : ∀ d : BitVec k, d ≠ 0 → 4 ≤ ones (enc k n H (d.setWidth n)))
    {S : List Nat} (hS : S.Nodup) (hne : S ≠ []) (hlt : ∀ j ∈ S, j < k) :
    4 ≤ S.length + H.countP (fun row => parityOf row.contains S) := by
  have hperm := support_bitsAt_perm hS hlt
  rw [← ones_enc_of_support hH hperm]
  refine hweight _ fun hzero => hne ?_
  rw [← List.perm_nil, ← support_eq_nil_iff.2 hzero]
  exact hperm.symm

/-- The weights of one, two and three data bits give the three column conditions (R108). -/
theorem columns_of_weight_four (hweight : ∀ d : BitVec k, d ≠ 0 → 4 ≤ ones (enc k n H (d.setWidth n))) :
    ColumnsHeavy k H ∧ ColumnsApart k H ∧ NoTripleCancels k H := by
  have hbits {S : List Nat} := four_le_weight_of_bits hH hweight (S := S)
  refine ⟨fun j hj => ?_, fun a ha b hb hab => ?_, fun a ha b hb c hc hab hac hbc => ?_⟩
  · have h := hbits (S := [j]) (by simp) (by simp) (by simpa)
    simp only [parityOf_one, List.length_cons, List.length_nil] at h
    omega
  · have h := hbits (S := [a, b]) (by simpa) (by simp) (by simp [ha, hb])
    simp only [parityOf_two, List.length_cons, List.length_nil] at h
    omega
  · have h := hbits (S := [a, b, c]) (by simp [hab, hac, hbc]) (by simp) (by simp [ha, hb, hc])
    simp only [parityOf_three, List.length_cons, List.length_nil] at h
    exact List.countP_pos_iff.1 (by omega)

/-- One, two and three data bits have weight at least 4 by the three column conditions, and four and more by their
number (R108). -/
theorem weight_four_of_columns (hheavy : ColumnsHeavy k H) (hapart : ColumnsApart k H) (htriple : NoTripleCancels k H)
    {d : BitVec k} (hd : d ≠ 0) : 4 ≤ ones (enc k n H (d.setWidth n)) := by
  rw [ones_enc_of_support hH (List.Perm.refl (support d))]
  have hnodup := nodup_support d
  have hlt : ∀ j ∈ support d, j < k := fun j => lt_of_mem_support
  have hne := mt support_eq_nil_iff.1 hd
  generalize support d = S at hnodup hlt hne
  match S with
  | [] => exact absurd rfl hne
  | [a] =>
    have h := hheavy a (hlt a (by simp))
    simp only [parityOf_one, List.length_cons, List.length_nil]
    omega
  | [a, b] =>
    have hab : a ≠ b := by simpa using hnodup
    have h := hapart a (hlt a (by simp)) b (hlt b (by simp)) hab
    simp only [parityOf_two, List.length_cons, List.length_nil]
    omega
  | [a, b, c] =>
    obtain ⟨⟨hab, hac⟩, hbc⟩ : (a ≠ b ∧ a ≠ c) ∧ b ≠ c := by simpa using hnodup
    have h := List.countP_pos_iff.2 (htriple a (hlt a (by simp)) b (hlt b (by simp)) c (hlt c (by simp)) hab hac hbc)
    simp only [parityOf_three, List.length_cons, List.length_nil]
    omega
  | _ :: _ :: _ :: _ :: _ =>
    simp only [List.length_cons]
    omega

theorem weight_four_iff_columns : (∀ d : BitVec k, d ≠ 0 → 4 ≤ ones (enc k n H (d.setWidth n))) ↔
    ColumnsHeavy k H ∧ ColumnsApart k H ∧ NoTripleCancels k H :=
  ⟨columns_of_weight_four hH,
    fun ⟨hheavy, hapart, htriple⟩ _ => weight_four_of_columns hH hheavy hapart htriple⟩

/-- By linearity, distances between codewords are weights of codewords. -/
theorem distance_four_iff_weight_four :
    (∀ a b : BitVec k, a ≠ b → 4 ≤ ones (enc k n H (a.setWidth n) ^^^ enc k n H (b.setWidth n))) ↔
      ∀ d : BitVec k, d ≠ 0 → 4 ≤ ones (enc k n H (d.setWidth n)) := by
  constructor
  · intro h d hd
    have hd0 := h d 0#k hd
    rwa [BitVec.setWidth_zero, enc_zero hH, BitVec.xor_zero] at hd0
  · intro h a b hab
    rw [← enc_xor hH, ← BitVec.setWidth_xor]
    exact h _ fun h0 => hab (BitVec.xor_eq_zero_iff.1 h0)

end Encoder

/-- Settles O11: distances are weights, and the weights of codewords are counted over the columns. -/
theorem distanceFourExactlyByColumns : Obligations.DistanceFourExactlyByColumns := by
  unfold Obligations.DistanceFourExactlyByColumns
  intro k n H hH
  exact ⟨distance_four_iff_weight_four hH, weight_four_iff_columns hH⟩

end Sys2Proof.Machine
end

