-- ==== Sys2Proof/Proofs/SignedView.lean ====
section
/-! PROOFS. The signed view of an output, its sign and its range (40_parity_encoders.md R131), and that every
operation completes (R105). -/

namespace Sys2Proof.Machine

open Sys2Proof.Statements

/-! ### Two's complement -/

/-- `toSigned` of R13 is two's complement. -/
theorem toSigned_eq_toInt {w : Nat} (v : BitVec w) : toSigned v = v.toInt := by
  rw [toSigned, BitVec.toInt_eq_msb_cond, BitVec.msb_eq_getLsbD_last]

theorem signedOf_eq_toInt {c : Component} (out : BitVec c.outWidth) : signedOf c out = out.toInt := by
  rw [signedOf, value_signed, toSigned_eq_toInt]

/-- The signed value is negative exactly when the top bit is 1 (R131). -/
theorem signedOf_neg_iff {c : Component} (out : BitVec c.outWidth) :
    signedOf c out < 0 ↔ out.getLsbD (c.outWidth - 1) = true := by
  rw [signedOf_eq_toInt, ← BitVec.msb_eq_getLsbD_last, BitVec.msb_eq_toInt, decide_eq_true_iff]

/-! ### Examples -/

/-- ENC_4_8 of a clean input: the same in every configuration. -/
theorem output_enc_4_8_of_clean (cfg : Config) {v : BitVec 8} (h : v >>> 4 = 0#8) :
    output cfg .enc_4_8 v = enc 4 8 Config.h4 v :=
  encUnder_eq_enc (.inr h)

/-- Settles O33: an output read with `s` = 1 is two's complement, and a result is an output on the result bus. -/
theorem signedViewCornerCases : Obligations.SignedViewCornerCases := by
  unfold Obligations.SignedViewCornerCases
  refine ⟨fun c out => ⟨signedOf_neg_iff out, ?_, ?_⟩, fun i st t h => ?_, fun cfg => ?_⟩
  · rw [signedOf_eq_toInt]
    exact BitVec.le_toInt out
  · rw [signedOf_eq_toInt]
    exact BitVec.toInt_le
  · rw [exec_eq_afterOp] at h
    cases h
    exact ⟨opReading st.cfg i, afterOp_results i st, (readingOf_bits_lt ..).2⟩
  · rw [output_enc_4_8_of_clean cfg (by decide), output_enc_4_8_of_clean cfg (by decide),
      output_enc_4_8_of_clean cfg (by decide)]
    decide

/-- Settles O34: an operation is its unit's, and every unit answers. -/
theorem everyOperationCompletes : Obligations.EveryOperationCompletes := by
  unfold Obligations.EveryOperationCompletes
  intro i st
  have h := exec_instr_eq_after i.component i.view i.operand st
  rw [instr_of_fields] at h
  exact ⟨_, h⟩

end Sys2Proof.Machine
end

