-- ==== Sys2Proof/Proofs/Encoders.lean ====
section
/-! PROOFS. The four encoders (40_parity_encoders.md R103, R107, R108, R111, R116, R121, R126): what holds of the
shared encoder, for the matrix of each. -/

namespace Sys2Proof.Machine

open Sys2Proof.Statements

/-! ### The four matrices -/

theorem forall_mem_encoders {p : Component → Prop} :
    (∀ c ∈ encoders, p c) ↔ p .enc_4_8 ∧ p .enc_11_16 ∧ p .enc_26_32 ∧ p .enc_57_64 := by
  simp [encoders]

theorem isMatrix_h4 : IsMatrix 4 8 Config.h4 := by
  unfold IsMatrix
  decide

theorem isMatrix_h11 : IsMatrix 11 16 Config.h11 := by
  unfold IsMatrix
  decide

/-- An accepted H26 passes P1 to P5 (R120). -/
theorem acceptable_h26 (cfg : Config) : AcceptableH26 cfg.h26.rows := (check26_iff _).1 cfg.h26.accepted

/-- An accepted H57 passes Q1 to Q4 (R125). -/
theorem acceptable_h57 (cfg : Config) : AcceptableH57 cfg.h57.rows := (check57_iff _).1 cfg.h57.accepted

theorem isMatrix_h26 (cfg : Config) : IsMatrix 26 32 cfg.h26.rows := by
  obtain ⟨hlength, hrows, -⟩ := acceptable_h26 cfg
  exact ⟨by rw [hlength], hrows⟩

theorem isMatrix_h57 (cfg : Config) : IsMatrix 57 64 cfg.h57.rows := by
  obtain ⟨hlength, hrows, -⟩ := acceptable_h57 cfg
  exact ⟨by rw [hlength], hrows⟩

/-- The three conditions of R108, which make a code of distance 4. -/
def ColumnConditions (k : Nat) (H : ParityMatrix) : Prop :=
  ColumnsHeavy k H ∧ ColumnsApart k H ∧ NoTripleCancels k H

theorem columnConditions_h4 : ColumnConditions 4 Config.h4 :=
  ⟨(columnsHeavy_iff 4 _).1 (by decide), (columnsApart_iff 4 _).1 (by decide), (noColumnTriple_iff 4 _).1 (by decide)⟩

theorem columnConditions_h11 : ColumnConditions 11 Config.h11 :=
  ⟨(columnsHeavy_iff 11 _).1 (by decide), (columnsApart_iff 11 _).1 (by decide),
    (noColumnTriple_iff 11 _).1 (by decide)⟩

theorem columnConditions_h26 (cfg : Config) : ColumnConditions 26 cfg.h26.rows := by
  obtain ⟨-, -, -, hcolumns⟩ := acceptable_h26 cfg
  exact hcolumns

theorem columnConditions_h57 (cfg : Config) : ColumnConditions 57 cfg.h57.rows := by
  obtain ⟨-, -, hcolumns⟩ := acceptable_h57 cfg
  exact hcolumns

/-! ### An encoder under DIRTY_HIGH_BITS -/

/-- The output depends on the data word alone (R104). -/
theorem enc_congr {k n : Nat} {H : ParityMatrix} {v w : BitVec n} (h : v.setWidth k = w.setWidth k) :
    enc k n H v = enc k n H w := by
  rw [enc, enc, h]

/-- An input with no dirty high bit has the output it has under `ignore` (R103). -/
theorem encUnder_of_clean (dirty : DirtyHighBits) {k n : Nat} (H : ParityMatrix) {v : BitVec n} (h : v >>> k = 0) :
    encUnder dirty k n H v = encUnder .ignore k n H v :=
  (encUnder_eq_enc (.inr h)).trans (encUnder_eq_enc (.inl rfl)).symm

section Encoder
variable {dirty : DirtyHighBits} {k n : Nat} {H : ParityMatrix}

theorem encUnder_congr {v w : BitVec n} (hdirty : dirty = .ignore) (h : v.setWidth k = w.setWidth k) :
    encUnder dirty k n H v = encUnder dirty k n H w := by
  rw [encUnder_eq_enc (.inl hdirty), encUnder_eq_enc (.inl hdirty), enc_congr h]

variable (hH : IsMatrix k n H)
include hH

theorem encUnder_zero : encUnder dirty k n H 0#n = 0#n := by
  rw [encUnder_eq_enc (.inr BitVec.zero_ushiftRight), enc_zero hH]

/-- Distinct data words have outputs at distance at least 4, under the column conditions (R108). -/
theorem four_le_distance_enc (hcolumns : ColumnConditions k H) {v w : BitVec n}
    (hne : v.setWidth k ≠ w.setWidth k) : 4 ≤ ones (enc k n H v ^^^ enc k n H w) := by
  have h := (distance_four_iff_weight_four hH).2 ((weight_four_iff_columns hH).2 hcolumns) _ _ hne
  rwa [enc_congr (setWidth_setWidth_data hH _), enc_congr (setWidth_setWidth_data hH _)] at h

theorem four_le_distance_encUnder (hcolumns : ColumnConditions k H) {v w : BitVec n}
    (hclean : dirty = .ignore ∨ v >>> k = 0 ∧ w >>> k = 0) (hne : v.setWidth k ≠ w.setWidth k) :
    4 ≤ ones (encUnder dirty k n H v ^^^ encUnder dirty k n H w) := by
  rw [encUnder_eq_enc (hclean.imp_right And.left), encUnder_eq_enc (hclean.imp_right And.right)]
  exact four_le_distance_enc hH hcolumns hne

end Encoder

/-- Settles O10: 0 has no dirty high bit, and the encoder is linear. -/
theorem encodersMapZeroToZero : Obligations.EncodersMapZeroToZero := by
  unfold Obligations.EncodersMapZeroToZero
  intro cfg
  exact forall_mem_encoders.2 ⟨encUnder_zero isMatrix_h4, encUnder_zero isMatrix_h11,
    encUnder_zero (isMatrix_h26 cfg), encUnder_zero (isMatrix_h57 cfg)⟩

/-- Settles O12: each of the four matrices meets the column conditions. -/
theorem encodersHaveDistanceFour : Obligations.EncodersHaveDistanceFour := by
  unfold Obligations.EncodersHaveDistanceFour
  intro cfg
  exact forall_mem_encoders.2
    ⟨fun _ _ => four_le_distance_encUnder isMatrix_h4 columnConditions_h4,
     fun _ _ => four_le_distance_encUnder isMatrix_h11 columnConditions_h11,
     fun _ _ => four_le_distance_encUnder (isMatrix_h26 cfg) (columnConditions_h26 cfg),
     fun _ _ => four_le_distance_encUnder (isMatrix_h57 cfg) (columnConditions_h57 cfg)⟩

/-- Settles O17: an output depends on the data word alone under `ignore`, and on no more for a clean input; every
operation answers. -/
theorem highInputBitsAreIgnored : Obligations.HighInputBitsAreIgnored := by
  unfold Obligations.HighInputBitsAreIgnored
  refine ⟨fun cfg => forall_mem_encoders.2 ?_, fun cfg => forall_mem_encoders.2 ?_,
    fun st c _ s v _ => ⟨_, exec_instr_eq_after c s v st⟩⟩
  · exact ⟨fun _ _ => encUnder_congr, fun _ _ => encUnder_congr, fun _ _ => encUnder_congr, fun _ _ => encUnder_congr⟩
  · exact ⟨fun _ => encUnder_of_clean _ _, fun _ => encUnder_of_clean _ _, fun _ => encUnder_of_clean _ _,
      fun _ => encUnder_of_clean _ _⟩

/-! ### The operations' results -/

/-- Where R100 gives the output of an operand, it gives that of the port's input. -/
theorem encUnder_of_R100Applies {dirty : DirtyHighBits} {k n : Nat} (H : ParityMatrix) {v : Word}
    (h : R100Applies dirty k n v) : encUnder dirty k n H (v.setWidth n) = enc k n H (v.setWidth n) := by
  refine encUnder_eq_enc (h.imp_right fun hclean => BitVec.eq_of_getLsbD_eq fun j hj => ?_)
  by_cases hkj : k + j < n
  · simp [hkj, hclean (k + j) (Nat.le_add_right k j) hkj]
  · simp [hkj]

/-- R111's pseudocode is the shared encoder's output. -/
theorem enc_h4_eq_word4 (v : Word) : enc 4 8 Config.h4 (v.setWidth 8) = word4 v := by
  refine BitVec.eq_of_getLsbD_eq fun p hp => ?_
  rw [getLsbD_enc isMatrix_h4, word4]
  change _ = BitVec.getLsbD (w := 1 + 1 + 1 + 1 + 4) _ p
  simp only [BitVec.getLsbD_append]
  interval_cases p <;> simp [Config.h4]

/-- R116's pseudocode is the shared encoder's output. -/
theorem enc_h11_eq_word11 (v : Word) : enc 11 16 Config.h11 (v.setWidth 16) = word11 v := by
  refine BitVec.eq_of_getLsbD_eq fun p hp => ?_
  rw [getLsbD_enc isMatrix_h11, word11]
  change _ = BitVec.getLsbD (w := 1 + 1 + 1 + 1 + 1 + 11) _ p
  simp only [BitVec.getLsbD_append]
  interval_cases p <;> simp [Config.h11]

/-- An operation of an encoder whose output on the operand is `out`. -/
theorem exec_instr_of_output {c : Component} {v : Word} {st : State} {out : BitVec c.outWidth}
    (h : output st.cfg c (v.setWidth c.inWidth) = out) (s : Bool) :
    exec (c.instr s v) st = .next (after c s v out st) := by
  rw [exec_instr_eq_after, assembleOperand, h]

/-- The top parity bit of ENC_4_8 (R111). -/
theorem getLsbD_word4_top (v : Word) :
    (word4 v).getLsbD 7 = (v.getLsbD 1 ^^ v.getLsbD 2 ^^ v.getLsbD 3) := by
  rw [← enc_h4_eq_word4, getLsbD_enc isMatrix_h4]
  simp [Config.h4]

/-- Settles O13: the shared encoder with H4 gives R111's pseudocode, whose sign is its top bit. -/
theorem enc4To8Result : Obligations.Enc4To8Result := by
  unfold Obligations.Enc4To8Result
  intro s v st h
  have hout := (encUnder_of_R100Applies Config.h4 h).trans (enc_h4_eq_word4 v)
  refine ⟨decode_encode (.enc_4_8 s v), exec_instr_of_output (c := .enc_4_8) hout s, ?_⟩
  rw [← getLsbD_word4_top]
  exact signedOf_neg_iff (c := .enc_4_8) (word4 v)

/-- Settles O14: the shared encoder with H11 gives R116's pseudocode. -/
theorem enc11To16Result : Obligations.Enc11To16Result := by
  unfold Obligations.Enc11To16Result
  refine ⟨fun s v st h => ⟨decode_encode (.enc_11_16 s v), ?_⟩, by decide⟩
  exact exec_instr_of_output (c := .enc_11_16) ((encUnder_of_R100Applies Config.h11 h).trans (enc_h11_eq_word11 v)) s

section Encoder
variable {k n : Nat} {H : ParityMatrix} (hH : IsMatrix k n H)
include hH

/-- The output for an operand bit by bit (R121, R126). -/
theorem getLsbD_enc_operand (v : Word) :
    (∀ j < k, (enc k n H (v.setWidth n)).getLsbD j = v.getLsbD j) ∧
      ∀ i, (enc k n H (v.setWidth n)).getLsbD (k + i) = parityOf (fun j => v.getLsbD j) (H.getD i []) := by
  have hkn : k + H.length = n := hH.1
  have hbit : ∀ j < k, (v.setWidth n).getLsbD j = v.getLsbD j := fun j hj => by simp [show j < n by omega]
  refine ⟨fun j hj => (getLsbD_enc_data hH _ hj).trans (hbit j hj), fun i => ?_⟩
  rw [getLsbD_enc_parity hH, parityOf_congr fun j hj => hbit j ((isMatrix_row hH i).2 j hj)]

/-- Where every row lists an odd number of data bits, the all-ones data word has an all-ones codeword. -/
theorem enc_ones_of_odd_rows (hodd : ∀ row ∈ H, row.length % 2 = 1) {v : BitVec n} (hv : ∀ j < k, v.getLsbD j = true)
    {p : Nat} (hp : p < n) : (enc k n H v).getLsbD p = true := by
  have hkn : k + H.length = n := hH.1
  rw [getLsbD_enc hH]
  split
  · next hpk => exact hv p hpk
  · next hpk =>
    have hall : ∀ j ∈ H.getD (p - k) [], v.getLsbD j = true := fun j hj => hv j ((isMatrix_row hH _).2 j hj)
    have hmem : H.getD (p - k) [] ∈ H := by
      rw [List.getD_eq_getElem _ _ (by omega)]
      exact List.getElem_mem _
    rw [parityOf, List.countP_eq_length.2 hall, hodd _ hmem]
    rfl

/-- A single data bit is a clean input; it passes through, and its parity field has the weight of its column
(R106). -/
theorem encUnder_single_bit (dirty : DirtyHighBits) (hheavy : ColumnsHeavy k H) {j : Nat} (hj : j < k) :
    (encUnder dirty k n H (1#n <<< j)).setWidth k = 1#k <<< j ∧
      3 ≤ ones (encUnder dirty k n H (1#n <<< j) >>> k) := by
  have hkn : k + H.length = n := hH.1
  have hbit := getLsbD_one_shiftLeft (show j < n by omega)
  have hclean : (1#n <<< j) >>> k = 0#n := by
    refine BitVec.eq_of_getLsbD_eq fun p _ => ?_
    rw [BitVec.getLsbD_ushiftRight, hbit, decide_eq_false (by omega), BitVec.getLsbD_zero]
  rw [encUnder_eq_enc (.inr hclean), setWidth_enc hH, ones_enc_parity_field hH]
  constructor
  · refine BitVec.eq_of_getLsbD_eq fun p hp => ?_
    rw [BitVec.getLsbD_setWidth, hbit, getLsbD_one_shiftLeft hj, decide_eq_true hp, Bool.true_and]
  · rw [List.countP_congr fun row hrow => by rw [funext hbit, parityOf_single (hH.2 row hrow).1]]
    exact hheavy j hj

end Encoder

/-- Settles O15: the shared encoder with an accepted H26, whose rows have 15 elements by P3. -/
theorem enc26To32Result : Obligations.Enc26To32Result := by
  unfold Obligations.Enc26To32Result
  refine ⟨fun s v st h => ⟨decode_encode (.enc_26_32 s v), _,
    exec_instr_of_output (c := .enc_26_32) (encUnder_of_R100Applies st.cfg.h26.rows h) s, ?_⟩, fun cfg => ?_⟩
  · obtain ⟨hdata, hparity⟩ := getLsbD_enc_operand (isMatrix_h26 st.cfg) v
    exact ⟨hdata, fun i _ => hparity i⟩
  · obtain ⟨-, -, hlength, -⟩ := acceptable_h26 cfg
    have hclean : output cfg .enc_26_32 0x3FFFFFF#32 = enc 26 32 cfg.h26.rows 0x3FFFFFF#32 :=
      encUnder_eq_enc (.inr (by decide))
    rw [hclean]
    refine BitVec.eq_of_getLsbD_eq fun p hp => ?_
    rw [enc_ones_of_odd_rows (isMatrix_h26 cfg) (fun row hrow => by rw [hlength row hrow]) (by decide) hp]
    exact ((by decide : ∀ p < 32, (0xFFFFFFFF#32).getLsbD p = true) p hp).symm

/-- Settles O16: the shared encoder with an accepted H57. -/
theorem enc57To64Result : Obligations.Enc57To64Result := by
  unfold Obligations.Enc57To64Result
  intro s v st h
  obtain ⟨hdata, hparity⟩ := getLsbD_enc_operand (isMatrix_h57 st.cfg) v
  exact ⟨decode_encode (.enc_57_64 s v), _,
    exec_instr_of_output (c := .enc_57_64) (encUnder_of_R100Applies st.cfg.h57.rows h) s, hdata,
    fun i _ => hparity i⟩

/-- Settles O20: a single data bit is a clean input, and its column has weight at least 3 by P4 and Q3. -/
theorem singleBitParityWeights : Obligations.SingleBitParityWeights := by
  unfold Obligations.SingleBitParityWeights
  intro cfg
  obtain ⟨hheavy26, -⟩ := columnConditions_h26 cfg
  obtain ⟨hheavy57, -⟩ := columnConditions_h57 cfg
  exact ⟨fun j hj => encUnder_single_bit (isMatrix_h26 cfg) cfg.dirtyHighBits hheavy26 hj,
    fun j hj => encUnder_single_bit (isMatrix_h57 cfg) cfg.dirtyHighBits hheavy57 hj⟩

end Sys2Proof.Machine
end

