-- ==== Sys2Proof/Proofs/EncoderTables.lean ====
section
/-! PROOFS. The derived properties of the two encoders whose matrices the spec gives (40_parity_encoders.md R112,
R117). Distances and the parity of weights follow from the columns; the weight distributions are counted. -/

namespace Sys2Proof.Machine

open Sys2Proof.Statements

/-! ### Even weights -/

theorem countP_xor_mod_two {α : Type} (p q : α → Bool) (l : List α) :
    l.countP (fun x => p x ^^ q x) % 2 = (l.countP p + l.countP q) % 2 := by
  induction l with
  | nil => rfl
  | cons x l ih =>
    rw [List.countP_cons, List.countP_cons, List.countP_cons]
    cases p x <;> cases q x <;> simp <;> omega

/-- Data bits whose columns have odd weight add an even number to a codeword's weight, each with its parity bits. -/
theorem even_weight_of_bits {H : ParityMatrix} {S : List Nat}
    (hodd : ∀ j ∈ S, H.countP (fun row => row.contains j) % 2 = 1) :
    (S.length + H.countP (fun row => parityOf row.contains S)) % 2 = 0 := by
  induction S with
  | nil => simp
  | cons j S ih =>
    obtain ⟨hj, hS⟩ := List.forall_mem_cons.1 hodd
    have hsum := countP_xor_mod_two (fun row => row.contains j) (fun row => parityOf row.contains S) H
    have := ih hS
    simp only [parityOf_cons, List.length_cons]
    omega

/-- Where every column has odd weight, every codeword has even weight. -/
theorem even_ones_enc {k n : Nat} {H : ParityMatrix} (hH : IsMatrix k n H)
    (hodd : ∀ j < k, H.countP (fun row => row.contains j) % 2 = 1) (v : BitVec n) :
    ones (enc k n H v) % 2 = 0 := by
  rw [← enc_congr (setWidth_setWidth_data hH (v.setWidth k)), ones_enc_of_support hH (List.Perm.refl _)]
  exact even_weight_of_bits fun j hj => hodd j (lt_of_mem_support hj)

/-! ### Data words given as numbers -/

/-- Distinct numbers below 2^k are distinct data words. -/
theorem setWidth_ofNat_ne {k n a b : Nat} (hkn : k ≤ n) (ha : a < 2 ^ k) (hb : b < 2 ^ k) (hab : a ≠ b) :
    (BitVec.ofNat n a).setWidth k ≠ (BitVec.ofNat n b).setWidth k := by
  rw [BitVec.setWidth_ofNat_of_le hkn, BitVec.setWidth_ofNat_of_le hkn]
  intro h
  have := congrArg BitVec.toNat h
  rw [BitVec.toNat_ofNat, BitVec.toNat_ofNat, Nat.mod_eq_of_lt ha, Nat.mod_eq_of_lt hb] at this
  exact hab this

theorem four_le_distance_enc4 {a b : Nat} (ha : a < 16) (hb : b < 16) (hab : a ≠ b) :
    4 ≤ ones (enc4 a ^^^ enc4 b) :=
  four_le_distance_enc isMatrix_h4 columnConditions_h4 (setWidth_ofNat_ne (by decide) ha hb hab)

theorem four_le_distance_enc11 {a b : Nat} (ha : a < 2048) (hb : b < 2048) (hab : a ≠ b) :
    4 ≤ ones (enc11 a ^^^ enc11 b) :=
  four_le_distance_enc isMatrix_h11 columnConditions_h11 (setWidth_ofNat_ne (by decide) ha hb hab)

/-- Complementing the data word complements the codeword: by linearity, and because the all-ones data word has the
all-ones codeword (R112). -/
theorem enc4_complement (d : Nat) : enc4 (d ^^^ 0xF) = enc4 d ^^^ 0xFF#8 := by
  have hones : enc4 0xF = 0xFF#8 := by decide
  rw [← hones, enc4, enc4, enc4, ← enc_xor isMatrix_h4, BitVec.ofNat_xor]

/-! ### Weight distributions -/

/-- How many words have weight `w` among the XORs of `x` with any of the codewords of data bits 0 to m − 1. By
linearity these give every codeword by one XOR, so that counting runs no encoder. -/
def weightCount {n : Nat} (single : Nat → BitVec n) (w : Nat) : Nat → BitVec n → Nat
  | 0, x => if columnWeight n x.toNat = w then 1 else 0
  | m + 1, x => weightCount single w m x + weightCount single w m (x ^^^ single m)

theorem countP_testBit_eq_columnWeight (m x : Nat) :
    (List.range m).countP (fun j => x.testBit j) = columnWeight m x := by
  induction m generalizing x with
  | zero => rfl
  | succ m ih =>
    rw [List.range_succ_eq_map, List.countP_cons, List.countP_map, columnWeight, ← ih (x / 2), Nat.testBit_zero]
    simp only [Function.comp_def, Nat.testBit_succ]
    rcases Nat.mod_two_eq_zero_or_one x with hx | hx <;> simp [hx, Nat.add_comm]

/-- The two ways to count the 1 bits of a value agree. -/
theorem ones_eq_columnWeight {w : Nat} (v : BitVec w) : ones v = columnWeight w v.toNat :=
  countP_testBit_eq_columnWeight w v.toNat

theorem two_pow_add_eq_xor {m d : Nat} (hd : d < 2 ^ m) : 2 ^ m + d = 2 ^ m ^^^ d := by
  have hor := Nat.two_pow_add_eq_or_of_lt hd 1
  rw [Nat.mul_one] at hor
  rw [hor]
  refine Nat.eq_of_testBit_eq fun i => ?_
  rw [Nat.testBit_or, Nat.testBit_xor, Nat.testBit_two_pow]
  by_cases hi : m = i
  · subst hi
    simp [Nat.testBit_lt_two_pow hd]
  · simp [hi]

theorem ofNat_two_pow (n m : Nat) : BitVec.ofNat n (2 ^ m) = 1#n <<< m := by
  rw [← BitVec.twoPow_eq]
  exact BitVec.eq_of_toNat_eq (by rw [BitVec.toNat_ofNat, BitVec.toNat_twoPow])

/-- Counting over the data words below 2^m: those without data bit m, then those with it. -/
theorem countP_ones_xor_enc {k n : Nat} {H : ParityMatrix} (hH : IsMatrix k n H) (w m : Nat) (x : BitVec n) :
    (List.range (2 ^ m)).countP (fun d => ones (x ^^^ enc k n H (BitVec.ofNat n d)) = w) =
      weightCount (fun j => enc k n H (1#n <<< j)) w m x := by
  induction m generalizing x with
  | zero => simp [weightCount, enc_zero hH, ← ones_eq_columnWeight, List.countP_singleton]
  | succ m ih =>
    rw [weightCount, ← ih, ← ih, Nat.pow_succ, Nat.mul_two, List.range_add, List.countP_append, List.countP_map]
    congr 1
    refine List.countP_congr fun d hd => ?_
    rw [Function.comp_apply, two_pow_add_eq_xor (List.mem_range.1 hd), BitVec.ofNat_xor, ofNat_two_pow, enc_xor hH,
      BitVec.xor_assoc]

theorem countP_ones_enc {k n : Nat} {H : ParityMatrix} (hH : IsMatrix k n H) (m w : Nat) :
    (List.range (2 ^ m)).countP (fun d => ones (enc k n H (BitVec.ofNat n d)) = w) =
      weightCount (fun j => enc k n H (1#n <<< j)) w m 0#n := by
  simpa only [BitVec.zero_xor] using countP_ones_xor_enc hH w m 0#n

theorem countP_ones_enc4 (w : Nat) : (List.range 16).countP (fun d => ones (enc4 d) = w) =
    weightCount (fun j => enc 4 8 Config.h4 (1#8 <<< j)) w 4 0#8 :=
  countP_ones_enc isMatrix_h4 4 w

theorem countP_ones_enc11 (w : Nat) : (List.range 2048).countP (fun d => ones (enc11 d) = w) =
    weightCount (fun j => enc 11 16 Config.h11 (1#16 <<< j)) w 11 0#16 :=
  countP_ones_enc isMatrix_h11 11 w

/-- R117's weight distribution, counted over the 2048 codewords. -/
theorem weight_distribution_enc11 :
    [0, 4, 6, 8, 10, 12, 16].map (fun w => (List.range 2048).countP fun d => ones (enc11 d) = w) =
      [1, 140, 448, 870, 448, 140, 1] := by
  simp only [countP_ones_enc11]
  decide +kernel

/-! ### The columns of H4 -/

/-- The XOR of any three columns of H4 has weight 1 (R112). -/
theorem triple_weights_h4 : ∀ a < 4, ∀ b < 4, ∀ c < 4, a ≠ b ∧ a ≠ c ∧ b ≠ c →
    (List.range 4).countP (fun i => (rowsWith Config.h4 a).contains i ^^ (rowsWith Config.h4 b).contains i ^^
      (rowsWith Config.h4 c).contains i) = 1 := by
  decide

/-- Settles O18: the columns of H4 by evaluation, distances and even weights by the columns, complements by
linearity. -/
theorem enc4To8Properties : Obligations.Enc4To8Properties := by
  unfold Obligations.Enc4To8Properties
  simp only [countP_ones_enc4]
  exact ⟨by decide, by decide, fun a ha b hb c hc hab hac hbc => triple_weights_h4 a ha b hb c hc ⟨hab, hac, hbc⟩,
    fun a ha b hb => four_le_distance_enc4 ha hb, ⟨0, by decide, 1, by decide, by decide, by decide⟩, by decide,
    by decide, by decide, fun d _ => even_ones_enc isMatrix_h4 (by decide) _, fun d _ => enc4_complement d⟩

/-- Settles O19: the columns of H11 by evaluation, distances and even weights by the columns, and the distribution by
counting. -/
theorem enc11To16Properties : Obligations.Enc11To16Properties := by
  unfold Obligations.Enc11To16Properties
  obtain ⟨hheavy, hapart, htriple⟩ := columnConditions_h11
  exact ⟨by decide, by decide, by decide, hheavy, hapart, htriple, fun d _ => even_ones_enc isMatrix_h11 (by decide) _,
    weight_distribution_enc11, by decide, fun a ha b hb => four_le_distance_enc11 ha hb,
    0, by decide, 2, by decide, by decide, by decide⟩

end Sys2Proof.Machine
end

