-- ==== Sys2Proof/Proofs/LegalRuns.lean ====
section
/-! PROOFS. The configuration step accepts exactly the matrices that pass their checks (40_parity_encoders.md R120,
R125), and a host that drives and asks for existing operations is never stopped (R105; 60_exceptions.md R170). -/

namespace Sys2Proof.Machine

open Sys2Proof.Statements

/-- Settles O43: the checks are P1 to P5 and Q1 to Q4, and a refusal lists those that fail. -/
theorem configurationIsCheckedExactly : Obligations.ConfigurationIsCheckedExactly := by
  unfold Obligations.ConfigurationIsCheckedExactly
  intro h26 h57 dirty
  have hcheck26 : check26 h26 = true ↔ AcceptableH26 h26 := check26_iff h26
  have hcheck57 : check57 h57 = true ↔ AcceptableH57 h57 := check57_iff h57
  rw [← hcheck26, ← hcheck57]
  constructor
  · rintro ⟨ok26, ok57⟩
    exact ⟨⟨⟨h26, ok26⟩, ⟨h57, ok57⟩, dirty⟩, rfl, rfl, rfl, configure_accepted ⟨⟨h26, ok26⟩, ⟨h57, ok57⟩, dirty⟩⟩
  · intro hbad
    by_cases ok26 : check26 h26 = true
    · have ok57 : ¬ check57 h57 = true := fun ok57 => hbad ⟨ok26, ok57⟩
      exact ⟨.h57, _, failedChecks_ne_nil ok57, by rw [configure, dif_pos ok26, dif_neg ok57]⟩
    · exact ⟨.h26, _, failedChecks_ne_nil ok26, by rw [configure, dif_neg ok26]⟩

/-! ### Legal actions -/

/-- A drive, or a request with a legal identifier. -/
def HostAction.Legal (a : HostAction) : Prop :=
  (∃ r, a = .request r ∧ r.wellFormed = true) ∨ ∃ c v, a = .drive c v

/-- A well-formed request is one unit's evaluation (R67). -/
theorem runRequest_of_wellFormed {r : Request} (h : r.wellFormed = true) (st : State) :
    ∃ c, runRequest r st = evaluate c (opselS r.opsel) r.operand st := by
  rcases runRequest_cases r st with ⟨c, -, hr⟩ | ⟨hnone, -⟩
  · exact ⟨c, hr⟩
  · have hreserved : reservedCodes.contains (r.opsel.setWidth 4) = true :=
      List.contains_iff_mem.2 ((componentOf_eq_none_iff r.opsel).1 hnone)
    rw [Request.wellFormed, hreserved] at h
    cases h

/-- A legal action answers, and takes nothing from the script. -/
theorem perform_legal {a : HostAction} (h : HostAction.Legal a) (st : State) :
    ∃ t, perform a st = .next t ∧ t.script = st.script := by
  rcases h with ⟨r, rfl, hr⟩ | ⟨c, v, rfl⟩
  · obtain ⟨c, hc⟩ := runRequest_of_wellFormed hr st
    exact ⟨_, hc.trans (evaluate_eq ..), rfl⟩
  · exact ⟨drivePort c v st, rfl, rfl⟩

/-- A step of a script of legal actions answers, and legal actions are left. -/
theorem step_legal {s : State} (h : ∀ a ∈ s.script, HostAction.Legal a) :
    ∃ t, step s = .next t ∧ ∀ a ∈ t.script, HostAction.Legal a := by
  cases hs : s.script with
  | nil => exact ⟨s, step_nil hs, h⟩
  | cons a rest =>
    rw [hs] at h
    obtain ⟨ha, hrest⟩ := List.forall_mem_cons.1 h
    obtain ⟨t, ht, hscript⟩ := perform_legal ha (s.withScript rest)
    exact ⟨t, (step_cons hs).trans ht, by rwa [hscript]⟩

/-- Settles O49: by induction on the number of steps, each of which answers and leaves legal actions. -/
theorem legalRequestsRunSafely : Obligations.LegalRequestsRunSafely := by
  unfold Obligations.LegalRequestsRunSafely
  intro s h k
  induction k generalizing s with
  | zero => exact ⟨s, rfl⟩
  | succ k ih =>
    obtain ⟨t, ht, hlegal⟩ := step_legal h
    rw [run_next ht]
    exact ih t hlegal

end Sys2Proof.Machine
end

