-- ==== Sys2Proof/Proofs/Replication.lean ====
section
/-! PROOFS. The shared combiner (41_replication.md R140): its copies, distances, signs and compositions (R150 to R153,
R156), and the results of the five combiners (R143 to R147). -/

namespace Sys2Proof.Machine

open Sys2Proof.Statements

/-! ### The copies -/

section Copies
variable {n : Nat} (r : Nat) (c : BitVec n)

/-- Bit p of copy j is bit p of the input (R140). -/
theorem getLsbD_rep_copy {r j p : Nat} (hj : j < r) (hp : p < n) : (rep n r c).getLsbD (j * n + p) = c.getLsbD p := by
  have hlt : j * n + p < r * n := calc
    j * n + p < j * n + n := Nat.add_lt_add_left hp _
    _ = (j + 1) * n := (Nat.succ_mul j n).symm
    _ ≤ r * n := Nat.mul_le_mul_right n hj
  rw [getLsbD_rep, decide_eq_true hlt, Bool.true_and, Nat.mul_add_mod_of_lt hp]

/-- Each copy is the input (R151). -/
theorem setWidth_rep_copy {r j : Nat} (hj : j < r) : ((rep n r c) >>> (j * n)).setWidth n = c := by
  refine BitVec.eq_of_getLsbD_eq fun p hp => ?_
  rw [BitVec.getLsbD_setWidth, BitVec.getLsbD_ushiftRight, getLsbD_rep_copy c hj hp, decide_eq_true hp, Bool.true_and]

/-- One more copy, below the others. -/
theorem rep_succ : rep n (r + 1) c = (rep n r c ++ c).cast (Nat.succ_mul r n).symm := by
  refine BitVec.eq_of_getLsbD_eq fun i hi => ?_
  rw [Nat.succ_mul] at hi
  rw [getLsbD_rep, BitVec.getLsbD_cast, BitVec.getLsbD_append, getLsbD_rep]
  by_cases hin : i < n
  · simp [hin, Nat.mod_eq_of_lt hin, Nat.succ_mul, hi]
  · simp [hin, Nat.succ_mul, hi, Nat.mod_eq_sub_mod (Nat.not_lt.1 hin), show i - n < r * n by omega]

/-- One copy is the input. -/
theorem rep_one : rep n 1 c = c.cast (Nat.one_mul n).symm := by
  refine BitVec.eq_of_getLsbD_eq fun i hi => ?_
  rw [Nat.one_mul] at hi
  rw [getLsbD_rep, BitVec.getLsbD_cast, Nat.mod_eq_of_lt hi, Nat.one_mul, decide_eq_true hi, Bool.true_and]

/-- Two copies as a concatenation (R143, R145, R147). -/
theorem rep_two : rep n 2 c = (c ++ c).cast (Nat.two_mul n).symm := by
  rw [rep_succ, rep_one, ← BitVec.cast_append_left (by omega), BitVec.cast_cast]

theorem rep_three : rep n 3 c = (c ++ c ++ c).cast (by omega) := by
  rw [rep_succ, rep_two, ← BitVec.cast_append_left (by omega), BitVec.cast_cast]

/-- Four copies as a concatenation (R144, R146). -/
theorem rep_four : rep n 4 c = (c ++ c ++ c ++ c).cast (by omega) := by
  rw [rep_succ, rep_three, ← BitVec.cast_append_left (by omega), BitVec.cast_cast]

/-- Copies of copies are copies (R156). -/
theorem rep_rep (q : Nat) : rep (r * n) q (rep n r c) = (rep n (q * r) c).cast (Nat.mul_assoc q r n) := by
  refine BitVec.eq_of_getLsbD_eq fun i hi => ?_
  have hn : 0 < r * n := Nat.pos_of_ne_zero fun h => by simp [h] at hi
  rw [BitVec.getLsbD_cast, getLsbD_rep, getLsbD_rep, getLsbD_rep, Nat.mod_mul_left_mod,
    decide_eq_true (Nat.mod_lt i hn), Nat.mul_assoc, Bool.true_and]

end Copies

/-- Settles O26: bit p of copy j is bit p of the input. -/
theorem combinerCopiesItsInput : Obligations.CombinerCopiesItsInput := by
  unfold Obligations.CombinerCopiesItsInput
  exact fun n r c j hj => setWidth_rep_copy c hj

/-! ### The operations' results -/

/-- Settles O21: two copies are a concatenation of two. -/
theorem rep8x2Result : Obligations.Rep8x2Result := by
  unfold Obligations.Rep8x2Result
  exact ⟨fun s v st => ⟨decode_encode (.rep_8x2 s v), exec_instr_of_output (c := .rep_8x2) (rep_two _) s⟩, by decide⟩

/-- Settles O22: four copies are a concatenation of four. -/
theorem rep8x4Result : Obligations.Rep8x4Result := by
  unfold Obligations.Rep8x4Result
  exact ⟨fun s v st => ⟨decode_encode (.rep_8x4 s v), exec_instr_of_output (c := .rep_8x4) (rep_four _) s⟩, by decide⟩

/-- Settles O23: two copies are a concatenation of two. -/
theorem rep16x2Result : Obligations.Rep16x2Result := by
  unfold Obligations.Rep16x2Result
  exact fun s v st => ⟨decode_encode (.rep_16x2 s v), exec_instr_of_output (c := .rep_16x2) (rep_two _) s⟩

/-- Settles O24: four copies are a concatenation of four. -/
theorem rep16x4Result : Obligations.Rep16x4Result := by
  unfold Obligations.Rep16x4Result
  exact ⟨fun s v st => ⟨decode_encode (.rep_16x4 s v), exec_instr_of_output (c := .rep_16x4) (rep_four _) s⟩,
    by decide⟩

/-- Settles O25: two copies are a concatenation of two. -/
theorem rep32x2Result : Obligations.Rep32x2Result := by
  unfold Obligations.Rep32x2Result
  exact ⟨fun s v st => ⟨decode_encode (.rep_32x2 s v), exec_instr_of_output (c := .rep_32x2) (rep_two _) s⟩,
    by decide⟩

/-! ### Distances -/

/-- The combiner is linear over GF(2). -/
theorem rep_xor (n r : Nat) (a b : BitVec n) : rep n r (a ^^^ b) = rep n r a ^^^ rep n r b := by
  refine BitVec.eq_of_getLsbD_eq fun i _ => ?_
  simp only [BitVec.getLsbD_xor, getLsbD_rep, Bool.and_xor_distrib_left]

/-- The weight of r copies is r times the input's: by induction on the copies. -/
theorem ones_rep (n r : Nat) (c : BitVec n) : ones (rep n r c) = r * ones c := by
  induction r with
  | zero => simp [ones]
  | succ r ih =>
    have hlow : (rep n (r + 1) c).setWidth (r * n) = rep n r c := by
      refine BitVec.eq_of_getLsbD_eq fun i hi => ?_
      have hlt : i < (r + 1) * n := Nat.lt_of_lt_of_le hi (Nat.mul_le_mul_right n (Nat.le_succ r))
      rw [BitVec.getLsbD_setWidth, getLsbD_rep, getLsbD_rep, decide_eq_true hlt, decide_eq_true hi, Bool.true_and]
    have hlast : (List.range n).countP (fun p => (rep n (r + 1) c).getLsbD (r * n + p)) = ones c :=
      List.countP_congr fun p hp => by rw [getLsbD_rep_copy c (Nat.lt_succ_self r) (List.mem_range.1 hp)]
    rw [ones_eq_low_add_high (Nat.succ_mul r n).symm, hlow, hlast, ih, Nat.succ_mul]

/-- Distance scales by the number of copies (R150). -/
theorem ones_rep_xor_rep (n r : Nat) (a b : BitVec n) :
    ones (rep n r a ^^^ rep n r b) = r * ones (a ^^^ b) := by
  rw [← rep_xor, ones_rep]

/-- Settles O27: the combiner is linear, and weights scale. -/
theorem replicationScalesDistance : Obligations.ReplicationScalesDistance := by
  unfold Obligations.ReplicationScalesDistance
  exact ones_rep_xor_rep

/-- The distance of eight copies made by two combiners (R156). -/
theorem ones_eightCopies_xor (a b : BitVec 8) :
    ones (rep 32 2 (rep 8 4 a) ^^^ rep 32 2 (rep 8 4 b)) = 8 * ones (a ^^^ b) := by
  have hinner : ones (rep 8 4 a ^^^ rep 8 4 b) = 4 * ones (a ^^^ b) := ones_rep_xor_rep 8 4 a b
  have houter := ones_rep_xor_rep 32 2 (rep 8 4 a) (rep 8 4 b)
  omega

/-- The codewords of 0 and 1 differ in 4 bits (R112). -/
theorem distance_enc_4_8_zero_one (cfg : Config) :
    ones (output cfg .enc_4_8 0#8 ^^^ output cfg .enc_4_8 1#8) = 4 := by
  rw [output_enc_4_8_of_clean cfg (by decide), output_enc_4_8_of_clean cfg (by decide)]
  decide

/-- ENC_11_16 of a clean input: the same in every configuration. -/
theorem output_enc_11_16_of_clean (cfg : Config) {v : BitVec 16} (h : v >>> 11 = 0#16) :
    output cfg .enc_11_16 v = enc 11 16 Config.h11 v :=
  encUnder_eq_enc (.inr h)

/-- The codewords of 0 and 2 differ in 4 bits (R117). -/
theorem distance_enc_11_16_zero_two (cfg : Config) :
    ones (output cfg .enc_11_16 0#16 ^^^ output cfg .enc_11_16 2#16) = 4 := by
  rw [output_enc_11_16_of_clean cfg (by decide), output_enc_11_16_of_clean cfg (by decide)]
  decide

/-- Words at distance 4, replicated by 2 and by 4 (R153). -/
theorem replicated_distances_of_four {n : Nat} {a b : BitVec n} (h : ones (a ^^^ b) = 4) :
    ones (rep n 2 a ^^^ rep n 2 b) = 8 ∧ ones (rep n 4 a ^^^ rep n 4 b) = 16 := by
  rw [ones_rep_xor_rep, ones_rep_xor_rep, h]
  decide

/-- Settles O29: distances scale, and the encoders have minimum distance 4, which ENC_4_8 and ENC_11_16 reach. -/
theorem replicatedMinimumDistances : Obligations.ReplicatedMinimumDistances := by
  unfold Obligations.ReplicatedMinimumDistances
  intro cfg hdirty
  have hfour (c : Component) (hc : c ∈ encoders) (a b : BitVec c.inWidth) :=
    encodersHaveDistanceFour cfg c hc a b (.inl hdirty)
  refine ⟨fun c hc a b hne => ?_, List.forall_mem_cons.2 ⟨?_, List.forall_mem_singleton.2 ?_⟩, fun a b hne => ?_,
    0#8, 1#8, by decide, ?_⟩
  · have := hfour c hc a b hne
    rw [ones_rep_xor_rep, ones_rep_xor_rep]
    omega
  · exact ⟨0#8, 1#8, by decide, replicated_distances_of_four (distance_enc_4_8_zero_one cfg)⟩
  · exact ⟨0#16, 2#16, by decide, replicated_distances_of_four (distance_enc_11_16_zero_two cfg)⟩
  · have := hfour .enc_4_8 (by decide) a b hne
    rw [ones_eightCopies_xor]
    omega
  · rw [ones_eightCopies_xor, distance_enc_4_8_zero_one]

/-! ### Signs -/

/-- Settles O28: the output's top bit is the top bit of the last copy. -/
theorem replicatedSignIsTheInputs : Obligations.ReplicatedSignIsTheInputs := by
  unfold Obligations.ReplicatedSignIsTheInputs
  intro n r c hn hr
  have htop : r * n - 1 = (r - 1) * n + (n - 1) := by
    rw [Nat.sub_one_mul, ← Nat.add_sub_assoc hn, Nat.sub_add_cancel (Nat.le_mul_of_pos_left n hr)]
  rw [← getLsbD_rep_copy c (Nat.sub_one_lt hr.ne') (Nat.sub_one_lt hn.ne'), ← htop, ← BitVec.msb_eq_getLsbD_last,
    BitVec.msb_eq_toInt, decide_eq_true_iff]

end Sys2Proof.Machine
end

