-- ==== Sys2Proof/Proofs/Composites.lean ====
section
/-! PROOFS. The pseudo-operations (30_encoding.md R80, R81; 41_replication.md R155, R156): what the chain of a line
reads and binds, by induction on its units. -/

namespace Sys2Proof.Machine

open Sys2Proof.Statements

/-! ### The results of a chain -/

/-- The results of a chain of units, the first with input `x`, newest first: every output is fed to the next unit's
input port, and the view is on the last one only (R80, R81). -/
def chainReadings (cfg : Config) (s : Bool) : (c : Component) → BitVec c.inWidth → List Component → List Reading
  | c, x, [] => [resultOf cfg c s x]
  | c, x, d :: rest =>
    chainReadings cfg s d ((output cfg c x).setWidth d.inWidth) rest ++ [resultOf cfg c false x]

/-- An output that is as wide as the next unit's input is that unit's input. -/
theorem chainReadings_cons {cfg : Config} {s : Bool} {c d : Component} {x : BitVec c.inWidth} {y : BitVec d.inWidth}
    (h : (output cfg c x).setWidth d.inWidth = y) (rest : List Component) :
    chainReadings cfg s c x (d :: rest) = chainReadings cfg s d y rest ++ [resultOf cfg c false x] := by
  rw [chainReadings, h]

theorem chainReadings_ne_nil (cfg : Config) (s : Bool) (c : Component) (x : BitVec c.inWidth)
    (rest : List Component) : chainReadings cfg s c x rest ≠ [] := by
  cases rest <;> simp [chainReadings]

/-- A result fed forward on the operand bus reaches the next unit's port whole (R63, R70). -/
theorem setWidth_resultOf_bits (cfg : Config) (c d : Component) (s : Bool) (x : BitVec c.inWidth) :
    (resultOf cfg c s x).bits.setWidth d.inWidth = (output cfg c x).setWidth d.inWidth :=
  BitVec.setWidth_setWidth_of_le _ (inWidth_le d)

/-! ### One operation of a chain -/

/-- The names that the operations of a line on `dest` from number `k` on will bind are free. -/
def FreeFrom (dest : String) (k : Nat) (st : State) : Prop :=
  st.names.lookup (.user dest) = none ∧ ∀ j, k ≤ j → st.names.lookup (.inner dest j) = none

theorem freeFrom_of_fresh {dest : String} {st : State} (h : Fresh dest st) : FreeFrom dest 0 st :=
  ⟨(lookup_none_iff _ _).2 fun b hb => (h b hb).1, fun j _ => (lookup_none_iff _ _).2 fun b hb => (h b hb).2 j⟩

/-- Binding inner result `k` leaves the later names free. -/
theorem FreeFrom.succ {dest : String} {k : Nat} {st t : State} {r : Reading} (h : FreeFrom dest k st)
    (hnames : t.names = (.inner dest k, r) :: st.names) : FreeFrom dest (k + 1) t := by
  obtain ⟨hdest, hinner⟩ := h
  rw [FreeFrom, hnames]
  refine ⟨(lookup_bindName_ne (by simp) st r).trans hdest, fun j hj => ?_⟩
  have hne : Name.inner dest j ≠ .inner dest k := by
    rintro ⟨⟩
    omega
  exact (lookup_bindName_ne hne st r).trans (hinner j (by omega))

/-- A step on an operation of a free name and a readable operand reads its unit's result and binds it (R75). -/
theorem step_op_binds {st : State} {n : Name} {o : AsmOperand} {v : Word} (hfree : st.names.lookup n = none)
    (hv : operandValue st o = some v) (c : Component) (s : Bool) (line : Nat) (rest : List HostAction) :
    ∃ t, step (st.withScript (.op line ⟨n, c.opsel s, o⟩ :: rest)) = .next t ∧ t.cfg = st.cfg ∧ t.script = rest ∧
      t.results = resultOf st.cfg c s (v.setWidth c.inWidth) :: st.results ∧
      t.names = (n, resultOf st.cfg c s (v.setWidth c.inWidth)) :: st.names := by
  have hrun := runOp_eq (line := line) (o := ⟨n, c.opsel s, o⟩) (st := st.withScript rest) hfree hv
    (componentOf_opsel c s)
  rw [opselS_opsel] at hrun
  exact ⟨_, (step_op ..).trans hrun, rfl, rfl, rfl, rfl⟩

/-! ### A whole chain -/

/-- A step that reads one more result, before a run that ends with `dest` bound to the newest result. -/
theorem endsBound_succ {st t : State} {k : Nat} {dest : String} {results : List Reading} {r : Reading}
    (hstep : step st = .next t) (hr : t.results = r :: st.results) (hne : results ≠ [])
    (h : EndsBound k t dest results) : EndsBound (k + 1) st dest (results ++ [r]) := by
  obtain ⟨u, hrun, hscript, hresults, hname⟩ := h
  refine ⟨u, (run_next hstep).trans hrun, hscript, ?_, ?_⟩
  · rw [hresults, hr, List.append_assoc, List.singleton_append]
  · rw [hname, List.head?_append_of_ne_nil _ hne]

/-- The operations of a chain, run to their end. -/
theorem endsBound_expandFrom (dest : String) (s : Bool) (line : Nat) (c : Component) (rest : List Component)
    {k : Nat} {o : AsmOperand} {v : Word} {st : State} (hfree : FreeFrom dest k st) (hv : operandValue st o = some v) :
    EndsBound (rest.length + 1)
      (st.withScript ((expandFrom dest s k o (c :: rest)).map (fun op => HostAction.op line op))) dest
      (chainReadings st.cfg s c (v.setWidth c.inWidth) rest) := by
  induction rest generalizing c k o v st with
  | nil =>
    obtain ⟨hdest, -⟩ := hfree
    obtain ⟨t, ht, -, hscript, hresults, hnames⟩ := step_op_binds hdest hv c s line []
    exact ⟨t, run_next ht, hscript, hresults, by rw [hnames, List.lookup_cons_self]; rfl⟩
  | cons d rest ih =>
    have hinner : st.names.lookup (.inner dest k) = none := hfree.2 k le_rfl
    obtain ⟨t, ht, hcfg, hscript, hresults, hnames⟩ := step_op_binds hinner hv c false line
      ((expandFrom dest s (k + 1) (.name (.inner dest k)) (d :: rest)).map (fun op => HostAction.op line op))
    have hnext : operandValue t (.name (.inner dest k)) = some (resultOf st.cfg c false (v.setWidth c.inWidth)).bits :=
      operandValue_name (by rw [hnames, List.lookup_cons_self])
    have hend := ih d (hfree.succ hnames) hnext
    rw [← hscript, State.withScript_self, hcfg, setWidth_resultOf_bits] at hend
    exact endsBound_succ ht hresults (chainReadings_ne_nil _ _ _ _ _) hend

section Composite
variable {st : State} {dest m : String} {c d : Component} {rest : List Component}

/-- A pseudo-operation on a literal, run to its end (R80). -/
theorem endsBound_composite (hchain : chainOf m = some (c :: rest)) (hfresh : Fresh dest st) (s : Bool) (v : Word)
    (line : Nat) : EndsBound (rest.length + 1) (composite m dest s v line st) dest
      (chainReadings st.cfg s c (v.setWidth c.inWidth) rest) := by
  rw [composite, hchain]
  exact endsBound_expandFrom dest s line c rest (freeFrom_of_fresh hfresh) rfl

/-- A pseudo-operation of two units, where the second unit's input is `y`. -/
theorem endsBound_two_units {s : Bool} {v : Word} {line : Nat} {y : BitVec d.inWidth}
    (hchain : chainOf m = some [c, d]) (hy : (output st.cfg c (v.setWidth c.inWidth)).setWidth d.inWidth = y)
    (hfresh : Fresh dest st) :
    EndsBound 2 (composite m dest s v line st) dest
      [resultOf st.cfg d s y, resultOf st.cfg c false (v.setWidth c.inWidth)] := by
  have h := endsBound_composite hchain hfresh s v line
  rwa [chainReadings_cons hy] at h

end Composite

/-- Settles O30: each of the five chains is an encoder and a combiner whose input is as wide as the codeword. -/
theorem twoStepCompositesClosedForm : Obligations.TwoStepCompositesClosedForm := by
  unfold Obligations.TwoStepCompositesClosedForm
  intro st dest s v line hfresh
  exact ⟨endsBound_two_units (c := .enc_4_8) (d := .rep_8x2) rfl (BitVec.setWidth_eq _) hfresh,
    endsBound_two_units (c := .enc_4_8) (d := .rep_8x4) rfl (BitVec.setWidth_eq _) hfresh,
    endsBound_two_units (c := .enc_11_16) (d := .rep_16x2) rfl (BitVec.setWidth_eq _) hfresh,
    endsBound_two_units (c := .enc_11_16) (d := .rep_16x4) rfl (BitVec.setWidth_eq _) hfresh,
    endsBound_two_units (c := .enc_26_32) (d := .rep_32x2) rfl (BitVec.setWidth_eq _) hfresh⟩

/-! ### Eight copies -/

/-- Eight copies made by two combiners, in either order, are the shared combiner's eight copies (R156). -/
theorem rep_32_2_rep_8_4 (c : BitVec 8) : rep 32 2 (rep 8 4 c) = rep 8 8 c := rep_rep 4 c 2

theorem rep_16_4_rep_8_2 (c : BitVec 8) : rep 16 4 (rep 8 2 c) = rep 8 8 c := rep_rep 2 c 4

/-- The chain of `enc_4_64`, run to its end. -/
theorem endsBound_enc_4_64 {st : State} {dest : String} (hfresh : Fresh dest st) (s : Bool) (v : Word) (line : Nat) :
    EndsBound 3 (composite "enc_4_64" dest s v line st) dest
      [⟨64, s, (rep 32 2 (rep 8 4 (output st.cfg .enc_4_8 (v.setWidth 8)))).setWidth 64⟩,
       ⟨32, false, (rep 8 4 (output st.cfg .enc_4_8 (v.setWidth 8))).setWidth 64⟩,
       ⟨8, false, (output st.cfg .enc_4_8 (v.setWidth 8)).setWidth 64⟩] := by
  have h := endsBound_composite (m := "enc_4_64") (c := .enc_4_8) (rest := [.rep_8x4, .rep_32x2]) rfl hfresh s v line
  rw [chainReadings_cons (BitVec.setWidth_eq _), chainReadings_cons (BitVec.setWidth_eq _)] at h
  exact h

/-- Settles O31: copies of copies are copies, and the chain of `enc_4_64` reads its three results. -/
theorem eightCopiesComposite : Obligations.EightCopiesComposite := by
  unfold Obligations.EightCopiesComposite
  refine ⟨fun c => ⟨?_, fun j hj => ?_⟩, fun st dest s v line hfresh => endsBound_enc_4_64 hfresh s v line,
    fun cfg => ?_⟩
  · rw [rep_32_2_rep_8_4, rep_16_4_rep_8_2]
  · rw [rep_32_2_rep_8_4, Nat.mul_comm 8 j]
    exact setWidth_rep_copy c hj
  · rw [output_enc_4_8_of_clean cfg (by decide)]
    decide

end Sys2Proof.Machine
end

