-- ==== Sys2Proof/Proofs/Stops.lean ====
section
/-! PROOFS. The ways a step and the configuration step can stop (60_exceptions.md R177): what each action of the host
can do besides answering, and from that the list of R177. -/

namespace Sys2Proof.Machine

/-! ### The two kinds of stop -/

/-- The fault that a read of an output answers with, by the state of its unit's input (R27, R206). -/
def FaultOfRead (st : State) (c : Component) (f : Fault) : Prop :=
  st.ports.get c = .undriven ∧ f = .undrivenRead c ∨ st.ports.get c = .changing ∧ f = .unstableRead c

/-- The refusals an action can answer with: an identifier that names no unit (R67), or a line that the assembler
refuses (R76). -/
def RefusalOfAction (r : Refusal) : Prop :=
  (∃ o, r = .reservedOpsel o ∧ componentOf o = none) ∨ ∃ line why, r = .asm line why

theorem refusalOfAction_reservedOpsel {o : Opsel} (h : componentOf o = none) :
    RefusalOfAction (.reservedOpsel o) :=
  .inl ⟨o, rfl, h⟩

theorem refusalOfAction_asm (line : Nat) (why : AsmError) : RefusalOfAction (.asm line why) :=
  .inr ⟨line, why, rfl⟩

/-! ### What each action can do -/

/-- An evaluation never faults: the operand it drives is on the port when the output is read. -/
theorem runRequest_next_or_refused (r : Request) (st : State) :
    (∃ t, runRequest r st = .next t) ∨ ∃ e, RefusalOfAction e ∧ runRequest r st = .refused e := by
  rcases runRequest_cases r st with ⟨c, -, hr⟩ | ⟨hnone, hr⟩
  · exact .inl ⟨_, hr.trans (evaluate_eq ..)⟩
  · exact .inr ⟨_, refusalOfAction_reservedOpsel hnone, hr⟩

/-- An assembled operation is refused for its destination, for its operand, or as its request is. -/
theorem runOp_next_or_refused (line : Nat) (o : AsmOp) (st : State) :
    (∃ t, runOp line o st = .next t) ∨ ∃ e, RefusalOfAction e ∧ runOp line o st = .refused e := by
  unfold runOp
  split
  · exact .inr ⟨_, refusalOfAction_asm line .nameBoundTwice, rfl⟩
  · exact .inr ⟨_, refusalOfAction_asm line .nameNotBound, rfl⟩
  · next v _ _ =>
    rcases runRequest_next_or_refused { opsel := o.opsel, operand := v } st with ⟨t, hr⟩ | ⟨e, he, hr⟩
    · exact .inl ⟨bindLast o.dest t, by rw [hr]⟩
    · exact .inr ⟨e, he, by rw [hr]⟩

/-- A program is loaded whole, or refused with the line that the assembler refuses. -/
theorem loadProgram_next_or_refused (start : List (String × Word)) (lines : List String) (st : State) :
    (∃ t, loadProgram start lines st = .next t) ∨
      ∃ e, RefusalOfAction e ∧ loadProgram start lines st = .refused e := by
  unfold loadProgram
  split
  · next e _ => exact .inr ⟨_, refusalOfAction_asm e.line e.why, rfl⟩
  · exact .inl ⟨_, rfl⟩

theorem readPort_next_or_fault (c : Component) (view : Bool) (st : State) :
    (∃ t, readPort c view st = .next t) ∨ ∃ f, FaultOfRead st c f ∧ readPort c view st = .fault f := by
  rcases readPort_cases c view st with ⟨hport, hr⟩ | ⟨hport, hr⟩ | ⟨v, -, hr⟩
  · exact .inr ⟨_, .inl ⟨hport, rfl⟩, hr⟩
  · exact .inr ⟨_, .inr ⟨hport, rfl⟩, hr⟩
  · exact .inl ⟨_, hr⟩

/-- The three things an action of the host can do (R177). -/
theorem perform_cases (a : HostAction) (st : State) :
    (∃ t, perform a st = .next t) ∨
    (∃ c view f, a = .read c view ∧ FaultOfRead st c f ∧ perform a st = .fault f) ∨
    ∃ e, RefusalOfAction e ∧ perform a st = .refused e := by
  cases a with
  | request r => exact (runRequest_next_or_refused r st).imp_right .inr
  | op line o => exact (runOp_next_or_refused line o st).imp_right .inr
  | load start lines => exact (loadProgram_next_or_refused start lines st).imp_right .inr
  | drive c v => exact .inl ⟨_, rfl⟩
  | change c => exact .inl ⟨_, rfl⟩
  | read c view =>
    rcases readPort_next_or_fault c view st with hnext | ⟨f, hf, hr⟩
    · exact .inl hnext
    · exact .inr (.inl ⟨c, view, f, rfl, hf, hr⟩)

/-! ### The list of R177 -/

/-- The three things a step can do (R177). -/
theorem step_cases (s : State) :
    (∃ t, step s = .next t) ∨
    (∃ c view rest f, s.script = .read c view :: rest ∧ FaultOfRead s c f ∧ step s = .fault f) ∨
    ∃ e, RefusalOfAction e ∧ step s = .refused e := by
  cases hs : s.script with
  | nil => exact .inl ⟨s, step_nil hs⟩
  | cons a rest =>
    rw [step_cons hs]
    rcases perform_cases a (s.withScript rest) with hnext | ⟨c, view, f, rfl, hf, hp⟩ | hrefused
    · exact .inl hnext
    · exact .inr (.inl ⟨c, view, rest, f, rfl, hf, hp⟩)
    · exact .inr (.inr hrefused)

/-- A fault is met by a read alone (R27, R206). -/
theorem read_of_step_fault {s : State} {f : Fault} (h : step s = .fault f) :
    ∃ c view rest, s.script = .read c view :: rest ∧ FaultOfRead s c f := by
  rcases step_cases s with ⟨t, ht⟩ | ⟨c, view, rest, g, hs, hg, hstep⟩ | ⟨e, -, hstep⟩
  · cases ht.symm.trans h
  · cases hstep.symm.trans h
    exact ⟨c, view, rest, hs, hg⟩
  · cases hstep.symm.trans h

theorem refusalOfAction_of_step_refused {s : State} {r : Refusal} (h : step s = .refused r) :
    RefusalOfAction r := by
  rcases step_cases s with ⟨t, ht⟩ | ⟨c, view, rest, f, -, -, hstep⟩ | ⟨e, he, hstep⟩
  · cases ht.symm.trans h
  · cases hstep.symm.trans h
  · cases hstep.symm.trans h
    exact he

/-- The configuration step refuses for a matrix that fails a check, and for nothing else (R120, R125). -/
theorem badMatrix_of_configure_refused {h26 h57 : ParityMatrix} {dirty : DirtyHighBits} {r : Refusal}
    (h : configure h26 h57 dirty = .refused r) : ∃ which failed, r = .badMatrix which failed := by
  unfold configure at h
  split at h
  · split at h
    · cases h
    · cases h
      exact ⟨_, _, rfl⟩
  · cases h
    exact ⟨_, _, rfl⟩

/-- Settles O48: from the three things a step can do; the identifiers that name no unit are the reserved codes. -/
theorem stopsAreExactlyTheListed : Obligations.StopsAreExactlyTheListed := by
  unfold Obligations.StopsAreExactlyTheListed
  refine ⟨fun s f h => read_of_step_fault h, fun s r h => ?_,
    fun h26 h57 dirty r h => badMatrix_of_configure_refused h⟩
  rcases refusalOfAction_of_step_refused h with ⟨o, rfl, hnone⟩ | hasm
  · exact .inl ⟨o, rfl, (componentOf_eq_none_iff o).1 hnone⟩
  · exact .inr hasm

end Sys2Proof.Machine
end

