-- ==== Sys2Proof/Proofs/Hazards.lean ====
section
/-! PROOFS. When an output has a value (70_reset_and_hazards.md R201, R205), and what a read of a changing input does
(R206; 10_state.md R27). -/

namespace Sys2Proof.Machine

/-! ### Outputs follow driven inputs -/

/-- The output of a unit whose input was never driven has no value (R27). -/
theorem outPort_undriven {st : State} {c : Component} (h : st.ports.get c = .undriven) : st.outPort c = none := by
  simp [State.outPort, h]

/-- A drive leaves every other unit's output (R28). -/
theorem outPort_drivePort_other {c d : Component} (hd : d ≠ c) (v : Word) (st : State) :
    (drivePort c v st).outPort d = st.outPort d :=
  outPort_congr (drivePort_cfg c v st) (by rw [drivePort_ports, Ports.get_set_other _ _ hd])

/-- Settles O40: power-up leaves every port undriven, and a drive writes its own port alone. -/
theorem outputsFollowDrivenInputs : Obligations.OutputsFollowDrivenInputs := by
  unfold Obligations.OutputsFollowDrivenInputs
  refine ⟨fun cfg c => outPort_undriven (Ports.get_undriven c), fun st c v rest => ?_⟩
  exact ⟨(drivePort c v st).withScript rest, step_drive st c v rest, outPort_drivePort c v st,
    fun d hd => outPort_drivePort_other hd v st⟩

/-! ### Reading a changing input -/

/-- The read's second case (R206): the input is changing, so its output has no settled value. -/
theorem readPort_changing {c : Component} {st : State} (h : st.ports.get c = .changing) (s : Bool) :
    readPort c s st = .fault (.unstableRead c) := by
  simp [readPort, h]

/-- An input that was driven is changing once the host lets go of it (R206). -/
theorem changePort_get_of_driven {c : Component} {st : State} (h : st.ports.get c ≠ .undriven) :
    (changePort c st).ports.get c = .changing := by
  rcases changePort_cases c st with ⟨hundriven, -⟩ | ⟨-, hc⟩
  · exact absurd hundriven h
  · rw [hc, State.setPort_ports, Ports.get_set_same]

/-- Letting go of an input that was never driven changes nothing (R27). -/
theorem changePort_of_undriven {c : Component} {st : State} (h : st.ports.get c = .undriven) :
    changePort c st = st := by
  rcases changePort_cases c st with ⟨-, hc⟩ | ⟨hdriven, -⟩
  · exact hc
  · exact absurd h hdriven

/-- Letting go of an input does not look at the script. -/
theorem changePort_withScript (c : Component) (st : State) (script : List HostAction) :
    changePort c (st.withScript script) = (changePort c st).withScript script := by
  unfold changePort
  rw [State.withScript_ports]
  cases st.ports.get c <;> rfl

theorem step_change (st : State) (c : Component) (rest : List HostAction) :
    step (st.withScript (.change c :: rest)) = .next ((changePort c st).withScript rest) := by
  rw [← changePort_withScript]
  exact step_cons (State.withScript_script st _)

/-- Settles O39: the read after the change sees the port as the change left it. -/
theorem unstableReadFaults : Obligations.UnstableReadFaults := by
  unfold Obligations.UnstableReadFaults
  intro st c s rest
  refine ⟨(changePort c st).withScript (.read c s :: rest), step_change st c _, fun hdriven => ?_,
    fun hundriven => ?_⟩
  · rw [step_read]
    exact readPort_changing (st := (changePort c st).withScript rest) (changePort_get_of_driven hdriven) s
  · rw [step_read, changePort_of_undriven hundriven]
    exact readPort_undriven (st := st.withScript rest) hundriven s

end Sys2Proof.Machine
end

