-- ==== Sys2Proof/Proofs/RunEnd.lean ====
section
/-! PROOFS. The end of a run: every run reaches it within the script's bound, and is observed there
(70_reset_and_hazards.md R211). -/

namespace Sys2Proof.Machine

/-- Settles O50: the step's first case, with no action to perform. -/
theorem endedRunStays : Obligations.EndedRunStays := by
  unfold Obligations.EndedRunStays
  intro s h
  exact step_nil h

/-! ### A run that has stopped -/

theorem run_fault {s : State} {f : Fault} (h : step s = .fault f) (k : Nat) : run (k + 1) s = .fault f := by
  simp [run, h]

theorem run_refused {s : State} {r : Refusal} (h : step s = .refused r) (k : Nat) : run (k + 1) s = .refused r := by
  simp [run, h]

/-- A state is observed exactly where the host has nothing left to do (R211). -/
theorem observe_next_iff {s : State} {obs : Observation} :
    observe (.next s) = some obs ↔ s.script = [] ∧ obs = .ended s.names s.results := by
  rw [observe]
  cases s.script with
  | nil => simp [eq_comm]
  | cons a rest => simp

/-- Once a run has an observation, further steps leave it as it is. -/
theorem run_of_observe {s : State} {k n : Nat} {obs : Observation} (h : observe (run k s) = some obs) (hkn : k ≤ n) :
    run n s = run k s := by
  induction k generalizing s n with
  | zero =>
    obtain ⟨hended, -⟩ := observe_next_iff.1 h
    exact run_ended hended n
  | succ k ih =>
    obtain ⟨m, rfl⟩ : ∃ m, n = m + 1 := ⟨n - 1, by omega⟩
    cases hstep : step s with
    | next t =>
      rw [run_next hstep] at h
      rw [run_next hstep, run_next hstep]
      exact ih h (Nat.le_of_succ_le_succ hkn)
    | fault f => rw [run_fault hstep, run_fault hstep]
    | refused r => rw [run_refused hstep, run_refused hstep]

/-- An outcome is observed as a fault, as a refusal, or as what the host has with nothing left to do. -/
theorem observe_cases {o : Host.Outcome State Fault Refusal} {obs : Observation} (h : observe o = some obs) :
    (∃ t, o = .next t ∧ t.script = [] ∧ obs = .ended t.names t.results) ∨
      (∃ f, o = .fault f ∧ obs = .faulted f) ∨ ∃ r, o = .refused r ∧ obs = .refused r := by
  cases o with
  | next t => exact .inl ⟨t, rfl, observe_next_iff.1 h⟩
  | fault f => cases h; exact .inr (.inl ⟨f, rfl, rfl⟩)
  | refused r => cases h; exact .inr (.inr ⟨r, rfl, rfl⟩)

/-! ### A run that goes on -/

/-- Before `k` steps the run from `s` has neither stopped nor ended. -/
def GoesOn (k : Nat) (s : State) : Prop := ∀ j < k, ∃ t, run j s = .next t ∧ t.script ≠ []

theorem goesOn_zero (s : State) : GoesOn 0 s := fun _ hj => absurd hj (Nat.not_lt_zero _)

theorem goesOn_one {s : State} (hs : s.script ≠ []) : GoesOn 1 s := by
  intro j hj
  cases Nat.lt_one_iff.1 hj
  exact ⟨s, rfl, hs⟩

theorem GoesOn.succ {s t : State} {k : Nat} (h : GoesOn k t) (hs : s.script ≠ []) (hstep : step s = .next t) :
    GoesOn (k + 1) s := by
  intro j hj
  cases j with
  | zero => exact ⟨s, rfl, hs⟩
  | succ j =>
    rw [run_next hstep]
    exact h j (Nat.lt_of_succ_lt_succ hj)

theorem scriptBound_pos {script : List HostAction} (h : script ≠ []) : 1 ≤ scriptBound script := by
  cases script with
  | nil => exact absurd rfl h
  | cons a rest =>
    have ha : 1 ≤ HostAction.stepBound a := by cases a <;> simp [HostAction.stepBound]
    exact ha.trans (Nat.le_add_right ..)

/-- Every run reaches an observation within its bound: it ends where the script is empty, stops where a step does, and
otherwise takes a step, which lowers the bound. -/
theorem exists_observe_run (s : State) :
    ∃ k ≤ scriptBound s.script, GoesOn k s ∧ ∃ obs, observe (run k s) = some obs := by
  induction hbound : scriptBound s.script using Nat.strong_induction_on generalizing s with
  | _ n ih =>
    subst hbound
    by_cases hs : s.script = []
    · exact ⟨0, Nat.zero_le _, goesOn_zero s, _, observe_next_iff.2 ⟨hs, rfl⟩⟩
    · cases hstep : step s with
      | next t =>
        have hlower := scriptBound_step hs hstep
        obtain ⟨k, hk, hgoes, hobs⟩ := ih _ hlower t rfl
        exact ⟨k + 1, by omega, hgoes.succ hs hstep, by rwa [run_next hstep]⟩
      | fault f => exact ⟨1, scriptBound_pos hs, goesOn_one hs, .faulted f, by rw [run_fault hstep]; rfl⟩
      | refused r => exact ⟨1, scriptBound_pos hs, goesOn_one hs, .refused r, by rw [run_refused hstep]; rfl⟩

/-- Settles O55: the run has not changed between its end and the bound, where `observeRun` observes it. -/
theorem everyRunEndsInItsObservation : Obligations.EveryRunEndsInItsObservation := by
  unfold Obligations.EveryRunEndsInItsObservation
  intro s
  obtain ⟨k, hk, hgoes, obs, hobs⟩ := exists_observe_run s
  have hrun : observeRun s = some obs := by rw [observeRun, run_of_observe hobs hk, hobs]
  refine ⟨k, hk, hgoes, ?_⟩
  rcases observe_cases hobs with ⟨t, ht, hend, rfl⟩ | ⟨f, hf, rfl⟩ | ⟨r, hr, rfl⟩
  · exact .inl ⟨t, ht, hend, hrun⟩
  · exact .inr (.inl ⟨f, hf, hrun⟩)
  · exact .inr (.inr ⟨r, hr, hrun⟩)

end Sys2Proof.Machine
end
